-- ==== Sys2Proof/Word.lean ====
section
/-! DEFINITION. The word of the register port, bit strings and the trace record: the plain data every other file uses. -/

namespace Sys2Proof

/-- A 32-bit word of the register port (00_scope.md R8). Bit 31 is the most significant (R12). -/
abbrev Word := BitVec 32

/-- A bit string (00_scope.md R9): position 0 is the head, the leading and most significant bit. -/
abbrev Bits := List Bool

/-- One record of the DivisionTrace (10_state.md R46; 40_divider.md R107). -/
structure TraceRec where
  /-- the window's starting offset -/
  off : Nat
  /-- the window's width n -/
  width : Nat
  /-- the window before the step -/
  before : Bits
  /-- whether the XOR was applied -/
  xored : Bool
  /-- the window after the step -/
  after : Bits
  deriving DecidableEq, Repr, Inhabited

/-- Storage by position, in one canonical form (log entry 12): keys strictly rising. A position that is not listed has
not been written since reset. -/
abbrev Cells (α : Type) := List (Nat × α)

end Sys2Proof
end

