-- ==== Sys2Proof/Config.lean ====
section
/-! DEFINITION. What an implementation fixes (the parameters LMAX and NMAX and the sizes derived from them) and the free
values: the draws of the spec, opaque constants without a body. -/

namespace Sys2Proof

/-- The two parameters of 00_scope.md R6. They are fixed for a machine; State holds them (log entry 1). -/
structure Params where
  lmax : Nat
  nmax : Nat
  deriving DecidableEq, Repr

/-- The ranges of 00_scope.md R6: 1 ≤ LMAX ≤ 32768 and 1 ≤ NMAX ≤ 1024. -/
def Params.legal (p : Params) : Bool :=
  decide (1 ≤ p.lmax) && decide (p.lmax ≤ 32768) && decide (1 ≤ p.nmax) && decide (p.nmax ≤ 1024)

/-- The reference configuration of 00_scope.md R6. -/
def Params.reference : Params := ⟨1024, 33⟩

/-- `WMAX`, the largest working buffer and transmitted frame (00_scope.md R7). -/
def Params.wmax (p : Params) : Nat := p.lmax

/-- `RMAX`, the largest remainder length (00_scope.md R7). -/
def Params.rmax (p : Params) : Nat := max (p.nmax - 1) 1

/-- `TMAX`, the trace memory's capacity in records (00_scope.md R7). -/
def Params.tmax (p : Params) : Nat := p.lmax

/-- `ceil(m / 32)`: the words that hold `m` bits. `DW`, `GW`, `RW` and `XW` of 00_scope.md R7 are this function of
LMAX, NMAX, RMAX and LMAX. -/
def wordsFor (m : Nat) : Nat := (m + 31) / 32

namespace Config

/-- Draw number `k` of a read of a result register while BUSY = 1 (20_memory.md R71; 93 I1). Free value, log entry 5. -/
opaque busyDraw (k : Nat) : Word

/-- The bit DBUF position `j` holds after reset number `epoch` (70_reset_and_hazards.md R192). Free value, log entry 6. -/
opaque dbufDraw (epoch j : Nat) : Bool

/-- The bit GBUF position `j` holds after reset number `epoch` (70_reset_and_hazards.md R192). Free value, log entry 6. -/
opaque gbufDraw (epoch j : Nat) : Bool

/-- The bit RBUF position `j` holds after reset number `epoch` (70_reset_and_hazards.md R192). Free value, log entry 6. -/
opaque rbufDraw (epoch j : Nat) : Bool

/-- The bit XBUF position `j` holds after reset number `epoch` (70_reset_and_hazards.md R192). Free value, log entry 6. -/
opaque xbufDraw (epoch j : Nat) : Bool

/-- The record trace memory entry `r` holds after reset number `epoch` (70_reset_and_hazards.md R192). Free value, log
entry 6. -/
opaque traceDraw (epoch r : Nat) : TraceRec

end Config

end Sys2Proof
end

