-- ==== Sys2Proof/Syntax.lean ====
section
/-! DEFINITION. The command words (one constructor per row of spec/opcode_table.json), the registers of the window, and
the statements of a host program. -/

namespace Sys2Proof

/-- The command the OP field selects (30_encoding.md R82). -/
inductive Op where
  | divide
  | encode
  | verify
  deriving DecidableEq, Repr

/-- A command word, as 30_encoding.md R85 maps all 2^32 values of a CTRL write. No command carries an operand (R86). -/
inductive Instr where
  /-- DIVIDE, 40_divider.md R117 -/
  | divide
  /-- DIVIDE.T, 40_divider.md R117 -/
  | divideT
  /-- ENCODE, 41_encoder.md R140 -/
  | encode
  /-- ENCODE.T, 41_encoder.md R140 -/
  | encodeT
  /-- VERIFY, 42_verifier.md R150 -/
  | verify
  /-- VERIFY.T, 42_verifier.md R150 -/
  | verifyT
  /-- START = 0, 30_encoding.md R94; `ignored` is the word's bits 30:0 -/
  | nop (ignored : BitVec 31)
  /-- START = 1 with RSVD ≠ 0 or OP = 11, 60_exceptions.md R164 -/
  | illegal (rsvd : BitVec 28) (t : BitVec 1) (op : BitVec 2)
  deriving DecidableEq, Repr

/-- What stands at an offset of the window (20_memory.md R60). -/
inductive Reg where
  | ctrl
  | status
  | irqen
  | dlen
  | glen
  | rlen
  | xlen
  | tcount
  | tidx
  | trecHdr
  | capLmax
  | capNmax
  | gbuf (w : Nat)
  | rbuf (w : Nat)
  | trecBefore (w : Nat)
  | trecAfter (w : Nat)
  | dbuf (w : Nat)
  | xbuf (w : Nat)
  | reserved
  deriving DecidableEq, Repr

/-- A statement of a host program that takes one host access a step (30_encoding.md R93). MOV, FLIP and the
pseudo-instructions of R94 are lists of these (Machine/HostOps.lean). Offsets are byte offsets in the window. -/
inductive HostOp where
  /-- `WR reg, imm32` -/
  | wr (off : Nat) (imm : Word)
  /-- `WR reg, t`: the write half of MOV and COPYXD -/
  | wrT (off : Nat)
  /-- `WR reg, t XOR mask`: the write half of FLIP -/
  | wrTXor (off : Nat) (mask : Word)
  /-- `RD reg` -/
  | rd (off : Nat)
  /-- `RD reg == imm32` -/
  | rdEq (off : Nat) (imm : Word)
  /-- `POLL reg, mask, val` -/
  | poll (off : Nat) (mask val : Word)
  /-- `COPYXD`: its word count is known only when XLEN has been read -/
  | copyXd
  /-- an access of `width` bytes, of any width (20_memory.md R66) -/
  | readSized (width off : Nat)
  /-- an access of `width` bytes, of any width (20_memory.md R66) -/
  | writeSized (width off : Nat) (v : Word)
  deriving DecidableEq, Repr

/-- Which agent takes the next transition (10_state.md R20; 20_memory.md R72). -/
inductive Turn where
  | host
  | engine
  | reset
  deriving DecidableEq, Repr

end Sys2Proof
end

