-- ==== Sys2Proof/WellFormed.lean ====
section
/-! DEFINITION. Which syntax trees stand for something of the hardware: command words the table's row matches, and
register names the map of 20_memory.md R60 has. -/

namespace Sys2Proof

/-- A tree is well formed when some command word decodes to it. Only the catch-all row has a side condition: the word
matches no exact row (opcode_table.json row "(illegal)"; 30_encoding.md R85). -/
def Instr.wellFormed : Instr → Bool
  | .divide | .divideT | .encode | .encodeT | .verify | .verifyT => true
  | .nop _ => true
  | .illegal rsvd _ op => decide (rsvd ≠ 0) || decide (op = 3)

/-- The buffer words that 20_memory.md R60 gives an offset. -/
def Reg.wellFormed : Reg → Bool
  | .gbuf w | .rbuf w | .trecBefore w | .trecAfter w => decide (w < 32)
  | .dbuf w | .xbuf w => decide (w < 1024)
  | _ => true

/-- The only access the block admits (20_memory.md R66). -/
def admittedAccess (width off : Nat) : Bool :=
  decide (width = 4) && decide (off % 4 = 0) && decide (off < 0x4000)

/-- Every access the statement can make is admitted. `COPYXD` is judged when it expands. -/
def HostOp.wellFormed : HostOp → Bool
  | .wr off _ | .wrT off | .wrTXor off _ | .rd off | .rdEq off _ | .poll off _ _ => admittedAccess 4 off
  | .copyXd => true
  | .readSized width off | .writeSized width off _ => admittedAccess width off

end Sys2Proof
end

