-- ==== Sys2Proof/Decode.lean ====
section
/-! DEFINITION. The decoder of the command word, total on every word, and the encoder written from the same table
(30_encoding.md R80 to R85). -/

namespace Sys2Proof

/-- `START`, bit 31 (30_encoding.md R80). -/
def fieldStart (v : Word) : Bool := v.getLsbD 31

/-- `RSVD`, bits 30:3 (30_encoding.md R80). -/
def fieldRsvd (v : Word) : BitVec 28 := v.extractLsb' 3 28

/-- `T`, bit 2 (30_encoding.md R80). -/
def fieldT (v : Word) : BitVec 1 := v.extractLsb' 2 1

/-- `OP`, bits 1:0 (30_encoding.md R80). -/
def fieldOp (v : Word) : BitVec 2 := v.extractLsb' 0 2

/-- `Decode(v)` of 30_encoding.md R85: every 32-bit word is a NOP, an illegal launch or one of the six commands. -/
def decodeWord (v : Word) : Instr :=
  if fieldStart v = false then .nop (v.extractLsb' 0 31)
  else if fieldRsvd v ≠ 0 then .illegal (fieldRsvd v) (fieldT v) (fieldOp v)
  else if fieldOp v = 3 then .illegal (fieldRsvd v) (fieldT v) (fieldOp v)
  else if fieldOp v = 0 then (if fieldT v = 0 then .divide else .divideT)
  else if fieldOp v = 1 then (if fieldT v = 0 then .encode else .encodeT)
  else (if fieldT v = 0 then .verify else .verifyT)

/-- Why a bit pattern is no command word. -/
inductive DecodeError where
  /-- every command word has 32 bits (30_encoding.md R80) -/
  | notAWord (nbits : Nat)
  /-- the pattern has a bit at or above `nbits` -/
  | tooWide (w : Nat)
  deriving DecidableEq, Repr

/-- The decoder on any bits: `nbits` of them, read as the number `w`. -/
def decode (nbits w : Nat) : Except DecodeError Instr :=
  if nbits ≠ 32 then .error (.notAWord nbits)
  else if 2 ^ 32 ≤ w then .error (.tooWide w)
  else .ok (decodeWord (BitVec.ofNat 32 w))

/-- The command word with the given fields, from bit 31 down (30_encoding.md R80). -/
def commandWord (start : BitVec 1) (rsvd : BitVec 28) (t : BitVec 1) (op : BitVec 2) : Word :=
  start ++ rsvd ++ t ++ op

/-- The word of an instruction (30_encoding.md R82, R83, R85). -/
def encodeWord : Instr → Word
  | .divide => commandWord 1 0 0 0
  | .divideT => commandWord 1 0 1 0
  | .encode => commandWord 1 0 0 1
  | .encodeT => commandWord 1 0 1 1
  | .verify => commandWord 1 0 0 2
  | .verifyT => commandWord 1 0 1 2
  | .nop ignored => (0#1 ++ ignored : BitVec (1 + 31))
  | .illegal rsvd t op => commandWord 1 rsvd t op

/-- The words of an instruction: every command is one word (30_encoding.md R80). -/
def encode (i : Instr) : List Word := [encodeWord i]

/-- The instruction the decoder reads from a pattern of `nbits` bits numbered as spec/opcode_table.json numbers them. A
command word is one 32-bit value, so no byte order enters (20_memory.md R67). -/
def decodeTableWord (nbits w : Nat) : Option Instr :=
  match decode nbits w with
  | .ok i => some i
  | .error _ => none

end Sys2Proof
end

