-- ==== Sys2Proof/Machine/State.lean ====
section
/-! DEFINITION. The machine's state as plain data, why a step can stop, and the state after reset. INVENTORY.md lists
every field with its rule. -/

namespace Sys2Proof.Machine

/-- The engine's sequencer state (10_state.md R47). -/
inductive Phase where
  | idle
  | sweep
  deriving DecidableEq, Repr

/-- The error codes of 30_encoding.md R88. Codes 5 to 15 are never produced, so no constructor stands for them. -/
inductive ErrCode where
  | none
  | invalidInput
  | invalidGenerator
  | illegalCommand
  | capacity
  deriving DecidableEq, Repr

/-- The fields of STATUS (10_state.md R26). ERRARG is false for the dividend, data or frame and true for the generator
(R29). -/
structure Status where
  busy : Bool
  done : Bool
  err : Bool
  clean : Bool
  errCode : ErrCode
  errArg : Bool
  dropped : Bool
  traced : Bool
  deriving DecidableEq, Repr

/-- The host-visible registers that hold a value (10_state.md R24 to R39). -/
structure Regs where
  lastCmd : BitVec 3
  status : Status
  irqEn : Bool
  dlen : Word
  glen : Word
  rlen : Word
  xlen : Word
  tcount : Word
  tidx : Word
  deriving DecidableEq, Repr

/-- The bit buffers and the trace memory (10_state.md R42 to R46), by string position or record number. What is not
listed was not written since reset and reads as its draw (70_reset_and_hazards.md R192; log entries 6 and 12). -/
structure Memory where
  dbuf : Cells Bool
  gbuf : Cells Bool
  rbuf : Cells Bool
  xbuf : Cells Bool
  trace : Cells TraceRec
  deriving DecidableEq, Repr

/-- The hidden state of the engine (10_state.md R47 to R51). -/
structure Engine where
  phase : Phase
  /-- `op_l` -/
  opL : Op
  /-- `tr_l` -/
  trL : Bool
  /-- `L_l` -/
  lenL : Nat
  /-- `n_l` -/
  nL : Nat
  /-- `D_l` -/
  dL : Bits
  /-- `G_l` -/
  gL : Bits
  /-- the working buffer `W` -/
  wbuf : Bits
  /-- `Lw` -/
  lw : Nat
  /-- the sweep offset `i` -/
  i : Nat
  /-- the count `tc` of trace records written -/
  tc : Nat
  deriving DecidableEq, Repr

/-- The host agent (30_encoding.md R93): the statements still to run, its temporary `t`, and whether every assertion it
has run held (log entry 9). -/
structure HostAgent where
  prog : List HostOp
  t : Word
  assertsOk : Bool
  deriving DecidableEq, Repr

/-- The whole machine. `turns`, `draws` and `epoch` are the model's own fields (log entries 3, 5 and 6). -/
structure State where
  cfg : Params
  regs : Regs
  mem : Memory
  eng : Engine
  host : HostAgent
  /-- which agent moves next, first element first -/
  turns : List Turn
  /-- how many draws of 20_memory.md R71 have been made -/
  draws : Nat
  /-- how many resets have happened -/
  epoch : Nat
  deriving DecidableEq, Repr

/-- The hardware has no trap and no machine check (60_exceptions.md R160), so nothing faults: an error is the completion
of R163, a next state (log entry 22). -/
inductive Fault where
  deriving DecidableEq, Repr

/-- Why a step has no meaning. -/
inductive Refusal where
  /-- An instruction exec does not model yet, by its mnemonic. Raised by exec alone; no arm raises it now. Safe. -/
  | notModelled (mnemonic : String)
  /-- `BAD_ACCESS`: a host access that is not an aligned word inside the window (20_memory.md R66; 93 I19). Raised by
  memRead and memWrite. Safe: the spec asks for this refusal (log entry 13). -/
  | badAccess (width off : Nat)
  deriving DecidableEq, Repr

/-- STATUS after reset (10_state.md R53). -/
def Status.reset : Status :=
  { busy := false, done := false, err := false, clean := false, errCode := .none, errArg := false, dropped := false, traced := false }

/-- The registers after reset (10_state.md R53). -/
def Regs.reset : Regs :=
  { lastCmd := 0, status := Status.reset, irqEn := false, dlen := 0, glen := 0, rlen := 0, xlen := 0, tcount := 0, tidx := 0 }

/-- Storage after reset: nothing written, every bit its draw (70_reset_and_hazards.md R192). -/
def Memory.reset : Memory :=
  { dbuf := [], gbuf := [], rbuf := [], xbuf := [], trace := [] }

/-- The engine after reset: IDLE (10_state.md R53). The other values are unspecified and never read in IDLE: DESIGN
CHOICE, log entry 7. -/
def Engine.reset : Engine :=
  { phase := .idle, opL := .divide, trL := false, lenL := 0, nL := 0, dL := [], gL := [], wbuf := [], lw := 0, i := 0, tc := 0 }

/-- The host agent before a program is given to it (DESIGN CHOICE, log entries 2, 8 and 9). -/
def HostAgent.reset : HostAgent :=
  { prog := [], t := 0, assertsOk := true }

/-- The state after the first reset of a machine with parameters `p` (10_state.md R53). -/
def State.resetWith (p : Params) : State :=
  { cfg := p, regs := Regs.reset, mem := Memory.reset, eng := Engine.reset, host := HostAgent.reset, turns := [], draws := 0, epoch := 0 }

/-- The state after reset in the reference configuration of 00_scope.md R6 (DESIGN CHOICE, log entry 1). -/
def State.reset : State := State.resetWith Params.reference

end Sys2Proof.Machine
end

