-- ==== Sys2Proof/Machine/Flags.lean ====
section
/-! DEFINITION. Every computation on STATUS and every flag: the word a read returns, what an accepted launch, an error, a
dropped launch and a finish step write, the clean verdict and the interrupt line. -/

namespace Sys2Proof.Machine

/-- ERRCODE's four bits (30_encoding.md R88). -/
def errCodeBits : ErrCode → BitVec 4
  | .none => 0
  | .invalidInput => 1
  | .invalidGenerator => 2
  | .illegalCommand => 3
  | .capacity => 4

/-- The word a STATUS read returns, from bit 31 down (10_state.md R26). -/
def statusWord (st : Status) : Word :=
  0#21 ++ BitVec.ofBool st.traced ++ BitVec.ofBool st.dropped ++ BitVec.ofBool st.errArg ++ errCodeBits st.errCode
    ++ BitVec.ofBool st.clean ++ BitVec.ofBool st.err ++ BitVec.ofBool st.done ++ BitVec.ofBool st.busy

/-- STATUS at an accepted launch (40_divider.md R112). -/
def acceptFlags (st : Status) : Status :=
  { st with busy := true, done := false, err := false, errCode := .none, errArg := false, clean := false, traced := false }

/-- STATUS at an error completion (60_exceptions.md R163). BUSY and DROPPED keep their values. -/
def errorFlags (code : ErrCode) (arg : Bool) (st : Status) : Status :=
  { st with err := true, errCode := code, errArg := arg, done := true, clean := false, traced := false }

/-- STATUS at the finish step, after the commit (40_divider.md R114). -/
def finishFlags (tr : Bool) (st : Status) : Status :=
  { st with traced := tr, busy := false, done := true }

/-- The verdict of 42_verifier.md R151: every bit of the remainder is 0. -/
def cleanVerdict (rem : Bits) : Bool := rem.all (fun b => !b)

/-- The interrupt output: STATUS.DONE AND IRQEN.EN (60_exceptions.md R171). -/
def irq (s : State) : Bool := s.regs.status.done && s.regs.irqEn

end Sys2Proof.Machine
end

