-- ==== Sys2Proof/Machine/Ops.lean ====
section
/-! DEFINITION. The named operations over storage and registers, the error completion and reset. Instructions and the
engine change the state through these only. -/

namespace Sys2Proof.Machine

/-- The outcome of a step that reads a value: the value and the state after, or why it stopped. -/
abbrev Result (α : Type) := Host.Outcome α Fault Refusal

/-- Go on from a next state; a fault or a refusal stays. -/
def onNext {α β : Type} (o : Result α) (f : α → Result β) : Result β :=
  match o with
  | .next a => f a
  | .fault r => .fault r
  | .refused r => .refused r

/-! ## Bit strings -/

/-- The `len` positions of `s` from `start` (00_scope.md R9). -/
def substr (s : Bits) (start len : Nat) : Bits := (s.drop start).take len

/-- `0^k` (00_scope.md R9). -/
def zeros (k : Nat) : Bits := List.replicate k false

/-- `a ⊕ b`, for strings of equal length (00_scope.md R11). -/
def xorBits (a b : Bits) : Bits := List.zipWith xor a b

/-! ## Packing (20_memory.md R63): string position 32w + k is bit 31 - k of word w -/

/-- The number whose binary digits, most significant first, are `bs`. -/
def natOfBits (bs : Bits) : Nat := bs.foldl (fun n b => 2 * n + b.toNat) 0

/-- Word `w` of the buffer whose bit at string position `j` is `f j`. -/
def packWord (f : Nat → Bool) (w : Nat) : Word :=
  BitVec.ofNat 32 (natOfBits ((List.range 32).map (fun k => f (32 * w + k))))

/-- The 32 bits of a word in string order, bit 31 first. -/
def unpackWord (v : Word) : Bits := (List.range 32).map (fun k => v.getLsbD (31 - k))

/-! ## Storage cells -/

/-- The entry at a position, if one was written since reset. -/
def cellAt {α : Type} : Cells α → Nat → Option α
  | [], _ => none
  | (k, a) :: rest, j => if k = j then some a else cellAt rest j

/-- The entries that hold `as` at positions `start`, `start + 1`, … -/
def cellsFrom {α : Type} (start : Nat) : List α → Cells α
  | [] => []
  | a :: as => (start, a) :: cellsFrom (start + 1) as

/-- Write `as` at positions `start`, `start + 1`, …; every other position is as it was. The one operation that writes
storage. -/
def splice {α : Type} (start : Nat) (as : List α) (cs : Cells α) : Cells α :=
  cs.filter (fun c => decide (c.1 < start)) ++ cellsFrom start as ++ cs.filter (fun c => decide (start + as.length ≤ c.1))

/-- The keys are strictly rising and below `size`. -/
def cellsWf {α : Type} (size : Nat) : Cells α → Bool
  | [] => true
  | (k, _) :: rest => decide (k < size) && rest.all (fun c => decide (k < c.1)) && cellsWf size rest

/-- The canonical form of storage (log entry 12), each part with the size 00_scope.md R7 gives it. -/
def Memory.wf (p : Params) (m : Memory) : Bool :=
  cellsWf p.lmax m.dbuf && cellsWf p.nmax m.gbuf && cellsWf p.rmax m.rbuf && cellsWf p.wmax m.xbuf && cellsWf p.tmax m.trace

/-- A storage bit: what was written, or else the draw; 0 beyond the storage (20_memory.md R62; 70_reset_and_hazards.md
R192). -/
def storedBit (size : Nat) (draw : Nat → Bool) (cs : Cells Bool) (j : Nat) : Bool :=
  decide (j < size) && (cellAt cs j).getD (draw j)

/-- `DBUF.bit[j]` (10_state.md R42). -/
def dbufBit (s : State) (j : Nat) : Bool := storedBit s.cfg.lmax (Config.dbufDraw s.epoch) s.mem.dbuf j

/-- `GBUF.bit[j]` (10_state.md R43). -/
def gbufBit (s : State) (j : Nat) : Bool := storedBit s.cfg.nmax (Config.gbufDraw s.epoch) s.mem.gbuf j

/-- `RBUF.bit[j]` (10_state.md R44). -/
def rbufBit (s : State) (j : Nat) : Bool := storedBit s.cfg.rmax (Config.rbufDraw s.epoch) s.mem.rbuf j

/-- `XBUF.bit[j]` (10_state.md R45). -/
def xbufBit (s : State) (j : Nat) : Bool := storedBit s.cfg.wmax (Config.xbufDraw s.epoch) s.mem.xbuf j

/-- `T[r]` (10_state.md R46). -/
def traceRecord (s : State) (r : Nat) : TraceRec := (cellAt s.mem.trace r).getD (Config.traceDraw s.epoch r)

/-- The bits of `v` that fall inside a buffer of `size` bits when `v` is word `w` (20_memory.md R62, R65). -/
def storableBits (size w : Nat) (v : Word) : Bits := (unpackWord v).take (size - 32 * w)

/-- The host's write of GBUF word `w` (20_memory.md R65). -/
def writeGbufWord (w : Nat) (v : Word) (s : State) : State :=
  { s with mem := { s.mem with gbuf := splice (32 * w) (storableBits s.cfg.nmax w v) s.mem.gbuf } }

/-- The host's write of DBUF word `w` (20_memory.md R65). -/
def writeDbufWord (w : Nat) (v : Word) (s : State) : State :=
  { s with mem := { s.mem with dbuf := splice (32 * w) (storableBits s.cfg.lmax w v) s.mem.dbuf } }

/-- `RBUF.bit[0 .. len(bs)-1] <- bs ; RLEN <- len(bs)`, a write of the finish step (10_state.md R36, R44). -/
def storeResult (bs : Bits) (s : State) : State :=
  { s with
    mem := { s.mem with rbuf := splice 0 bs s.mem.rbuf }
    regs := { s.regs with rlen := BitVec.ofNat 32 bs.length } }

/-- `XBUF.bit[0 .. len(bs)-1] <- bs ; XLEN <- len(bs)`, a write of the finish step (10_state.md R37, R45). -/
def storeFrame (bs : Bits) (s : State) : State :=
  { s with
    mem := { s.mem with xbuf := splice 0 bs s.mem.xbuf }
    regs := { s.regs with xlen := BitVec.ofNat 32 bs.length } }

/-- `XLEN <- 0`: a command without a frame (10_state.md R37). XBUF keeps its bits. -/
def clearFrame (s : State) : State := { s with regs := { s.regs with xlen := 0 } }

/-- `T[r] <- rec` (40_divider.md R113). -/
def storeRecord (r : Nat) (rec : TraceRec) (s : State) : State :=
  { s with mem := { s.mem with trace := splice r [rec] s.mem.trace } }

/-! ## Registers -/

/-- Replace STATUS by a function of it. -/
def updateStatus (f : Status → Status) (s : State) : State :=
  { s with regs := { s.regs with status := f s.regs.status } }

/-- `STATUS.CLEAN <- c` (10_state.md R30). -/
def setClean (c : Bool) (s : State) : State := updateStatus (fun st => { st with clean := c }) s

/-- A launch that arrives in SWEEP: `STATUS.DROPPED <- 1` and nothing else (60_exceptions.md R168). -/
def dropLaunch (s : State) : State := updateStatus (fun st => { st with dropped := true }) s

/-- `LASTCMD <- v[2:0] ; STATUS.DROPPED <- 0`: the first effect of a launch that is not dropped (30_encoding.md R81). -/
def noteLaunch (low : BitVec 3) (s : State) : State :=
  { s with regs := { s.regs with lastCmd := low, status := { s.regs.status with dropped := false } } }

/-! ## Errors and reset -/

/-- An error completion's code and ERRARG (30_encoding.md R88). -/
abbrev LaunchError := ErrCode × Bool

/-- `raise Error(code, arg)` (60_exceptions.md R163): the one way this hardware takes an exception. There is no saved
program counter, no vector and no return from it (R160, R169). -/
def errorCompletion (e : LaunchError) (s : State) : State :=
  { s with regs := { s.regs with status := errorFlags e.1 e.2 s.regs.status, rlen := 0, xlen := 0, tcount := 0 } }

/-- Reset (70_reset_and_hazards.md R190): every piece of the block's state takes its value of 10_state.md R53, and the
storage is drawn anew (R192). The host agent, the schedule and the draw counter are not the block's (log entry 18). -/
def resetBlock (s : State) : State :=
  { s with regs := Regs.reset, mem := Memory.reset, eng := Engine.reset, epoch := s.epoch + 1 }

end Sys2Proof.Machine
end

