-- ==== Sys2Proof/Machine/Divider.lean ====
section
/-! DEFINITION. The division, the encoding and the verification as pure functions of bit strings (40_divider.md section 1;
41_encoder.md R140 to R143; 42_verifier.md R150, R151). -/

namespace Sys2Proof.Machine

/-- `WindowStep(W, G, i)` (40_divider.md R100). -/
def windowStep (w g : Bits) (i : Nat) : Bits × TraceRec :=
  let n := g.length
  let before := substr w i n
  let x := before.headD false
  let after := if x then xorBits before g else before
  (w.take i ++ after ++ w.drop (i + n), { off := i, width := n, before := before, xored := x, after := after })

/-- The buffer and the records after the first `m` windows of a sweep, at offsets 0 to m - 1 (40_divider.md R101). -/
def sweepSteps (d g : Bits) : Nat → Bits × List TraceRec
  | 0 => (d, [])
  | m + 1 =>
    let p := sweepSteps d g m
    let q := windowStep p.1 g m
    (q.1, p.2 ++ [q.2])

/-- `NW(Lw, n) = max(Lw - n + 1, 0)` (40_divider.md R102). -/
def windowCount (lw n : Nat) : Nat := lw + 1 - n

/-- `Sweep(D, G)` (40_divider.md R101). -/
def sweep (d g : Bits) : Bits × List TraceRec := sweepSteps d g (windowCount d.length g.length)

/-- `Remainder(W, Lw, n)` (40_divider.md R103 to R106). -/
def remainder (w : Bits) (lw n : Nat) : Bits :=
  if n = 1 then [false]
  else if n - 1 ≤ lw then substr w (lw - (n - 1)) (n - 1)
  else zeros (n - 1 - lw) ++ w

/-- `RL(n)`, the remainder's length (40_divider.md R106). -/
def remainderLength (n : Nat) : Nat := max (n - 1) 1

/-- `Mod2Div(D, G)`: the remainder and the trace (40_divider.md R106). -/
def mod2Div (d g : Bits) : Bits × List TraceRec :=
  let p := sweep d g
  (remainder p.1 d.length g.length, p.2)

/-- `Checksum(rem, k)` (41_encoder.md R142; 90_conflicts.md C1). -/
def checksum (rem : Bits) (k : Nat) : Bits := if k = 0 then [] else rem

/-- `Encode(D, G)`: the checksum and the transmitted frame (41_encoder.md R140, R143). -/
def encodeFrame (d g : Bits) : Bits × Bits :=
  let k := g.length - 1
  let cs := checksum (mod2Div (d ++ zeros k) g).1 k
  (cs, d ++ cs)

/-- `Verify(R, G)`: the verdict and the remainder (42_verifier.md R150). -/
def verifyFrame (r g : Bits) : Bool × Bits :=
  let rem := (mod2Div r g).1
  (cleanVerdict rem, rem)

/-- What the command divides, from its data and the degree k: ENCODE pads, DIVIDE and VERIFY do not (40_divider.md R112;
41_encoder.md R141; 42_verifier.md R152). -/
def workingBuffer (op : Op) (d : Bits) (k : Nat) : Bits :=
  match op with
  | .encode => d ++ zeros k
  | .divide => d
  | .verify => d

end Sys2Proof.Machine
end

