-- ==== Sys2Proof/Machine/Operands.lean ====
section
/-! DEFINITION. Every operand is implicit (30_encoding.md R86): how it is assembled, which checks it must pass, and the
snapshot an accepted launch takes. -/

namespace Sys2Proof.Machine

/-- `Bits(DBUF, DLEN)`: the dividend, data or received frame (30_encoding.md R86; 20_memory.md R63). -/
def dividendBits (s : State) : Bits := (List.range s.regs.dlen.toNat).map (dbufBit s)

/-- `Bits(GBUF, GLEN)`: the generator (30_encoding.md R86; 20_memory.md R63). -/
def generatorBits (s : State) : Bits := (List.range s.regs.glen.toNat).map (gbufBit s)

/-- Checks 2 to 7 of `LaunchCheck` (60_exceptions.md R166): the first that fails, or none. -/
def operandCheck (op : Op) (s : State) : Option LaunchError :=
  let l := s.regs.dlen.toNat
  let n := s.regs.glen.toNat
  if l = 0 then some (.invalidInput, false)
  else if s.cfg.lmax < l then some (.capacity, false)
  else if n = 0 then some (.invalidInput, true)
  else if s.cfg.nmax < n then some (.capacity, true)
  else if op = .encode ∧ s.cfg.lmax < l + n - 1 then some (.capacity, false)
  else if gbufBit s 0 = false then some (.invalidGenerator, true)
  else none

/-- `LaunchCheck` (60_exceptions.md R166). `cmd` is the command and its trace flag, and none for an illegal word: check 1
comes first. -/
def launchCheck (cmd : Option (Op × Bool)) (s : State) : Except LaunchError (Op × Bool) :=
  match cmd with
  | none => .error (.illegalCommand, false)
  | some c =>
    match operandCheck c.1 s with
    | some e => .error e
    | none => .ok c

/-- `v[2:0]` of a legal launch word: T above OP (30_encoding.md R80, R82, R83). -/
def commandLow (op : Op) (tr : Bool) : BitVec 3 :=
  match op with
  | .divide => BitVec.ofBool tr ++ 0b00#2
  | .encode => BitVec.ofBool tr ++ 0b01#2
  | .verify => BitVec.ofBool tr ++ 0b10#2

/-- The engine right after `Accept` (40_divider.md R112): the latches of 10_state.md R48 to R51. -/
def acceptedEngine (op : Op) (tr : Bool) (s : State) : Engine :=
  let w := workingBuffer op (dividendBits s) (s.regs.glen.toNat - 1)
  { phase := .sweep, opL := op, trL := tr, lenL := s.regs.dlen.toNat, nL := s.regs.glen.toNat, dL := dividendBits s,
    gL := generatorBits s, wbuf := w, lw := w.length, i := 0, tc := 0 }

/-- `Accept(v)` (40_divider.md R112). -/
def accept (op : Op) (tr : Bool) (s : State) : State :=
  updateStatus acceptFlags { s with eng := acceptedEngine op tr s }

/-- `Launch(v)` (30_encoding.md R81), with `low = v[2:0]`. -/
def launch (low : BitVec 3) (cmd : Option (Op × Bool)) (s : State) : Result State :=
  if s.eng.phase = .sweep then .next (dropLaunch s)
  else
    let s1 := noteLaunch low s
    match launchCheck cmd s1 with
    | .error e => .next (errorCompletion e s1)
    | .ok c => .next (accept c.1 c.2 s1)

end Sys2Proof.Machine
end

