-- ==== Sys2Proof/Machine/Control.lean ====
section
/-! DEFINITION. The command words that name no call of the source: NOP (30_encoding.md R94) and the illegal launch
(60_exceptions.md R164). -/

namespace Sys2Proof.Machine

/-- NOP: a write with START = 0 has no effect on any state (10_state.md R25; 30_encoding.md R94). -/
def execNop (_ignored : BitVec 31) (s : State) : Result State := .next s

/-- An illegal launch ends in ILLEGAL_COMMAND, whatever its other bits hold (30_encoding.md R84; 60_exceptions.md R164).
LASTCMD takes v[2:0], here T and OP (30_encoding.md R81). -/
def execIllegal (_rsvd : BitVec 28) (t : BitVec 1) (op : BitVec 2) (s : State) : Result State := launch (t ++ op) none s

end Sys2Proof.Machine
end

