-- ==== Sys2Proof/Machine/Divide.lean ====
section
/-! DEFINITION. DIVIDE and DIVIDE.T (40_divider.md R117). -/

namespace Sys2Proof.Machine

/-- DIVIDE: the word 0x80000000 (40_divider.md R117). -/
def execDivide (s : State) : Result State := launch 0b000 (some (.divide, false)) s

/-- DIVIDE.T: the word 0x80000004 (40_divider.md R117). -/
def execDivideT (s : State) : Result State := launch 0b100 (some (.divide, true)) s

/-- `CommitDivide(rem)` (40_divider.md R117). -/
def commitDivide (rem : Bits) (s : State) : State := setClean false (clearFrame (storeResult rem s))

end Sys2Proof.Machine
end

