-- ==== Sys2Proof/Machine/Encode.lean ====
section
/-! DEFINITION. ENCODE and ENCODE.T (41_encoder.md R140). -/

namespace Sys2Proof.Machine

/-- ENCODE: the word 0x80000001 (41_encoder.md R140). -/
def execEncode (s : State) : Result State := launch 0b001 (some (.encode, false)) s

/-- ENCODE.T: the word 0x80000005 (41_encoder.md R140). -/
def execEncodeT (s : State) : Result State := launch 0b101 (some (.encode, true)) s

/-- `CommitEncode(rem)` (41_encoder.md R140, R142, R143). -/
def commitEncode (rem : Bits) (s : State) : State :=
  let cs := checksum rem (s.eng.nL - 1)
  setClean false (storeFrame (s.eng.dL ++ cs) (storeResult cs s))

end Sys2Proof.Machine
end

