-- ==== Sys2Proof/Machine/Verify.lean ====
section
/-! DEFINITION. VERIFY and VERIFY.T (42_verifier.md R150). -/

namespace Sys2Proof.Machine

/-- VERIFY: the word 0x80000002 (42_verifier.md R150). -/
def execVerify (s : State) : Result State := launch 0b010 (some (.verify, false)) s

/-- VERIFY.T: the word 0x80000006 (42_verifier.md R150). -/
def execVerifyT (s : State) : Result State := launch 0b110 (some (.verify, true)) s

/-- `CommitVerify(rem)` (42_verifier.md R150, R151). -/
def commitVerify (rem : Bits) (s : State) : State := setClean (cleanVerdict rem) (clearFrame (storeResult rem s))

end Sys2Proof.Machine
end

