-- ==== Sys2Proof/Machine/Dispatch.lean ====
section
/-! DEFINITION. One arm per command word: exec gives the host's CTRL write of that word its effect (20_memory.md R65). -/

namespace Sys2Proof.Machine

/-- The effect of a command word written to CTRL. -/
def exec (i : Instr) (s : State) : Host.Outcome State Fault Refusal :=
  match i with
  | .divide => Sys2Proof.Machine.execDivide s
  | .divideT => Sys2Proof.Machine.execDivideT s
  | .encode => Sys2Proof.Machine.execEncode s
  | .encodeT => Sys2Proof.Machine.execEncodeT s
  | .verify => Sys2Proof.Machine.execVerify s
  | .verifyT => Sys2Proof.Machine.execVerifyT s
  | .nop ignored => Sys2Proof.Machine.execNop ignored s
  | .illegal rsvd t op => Sys2Proof.Machine.execIllegal rsvd t op s

end Sys2Proof.Machine
end

