-- ==== Sys2Proof/Machine/Bus.lean ====
section
/-! DEFINITION. The register window: the map of 20_memory.md R60, what a read returns and what a write does. -/

namespace Sys2Proof.Machine

/-- The twelve registers at offsets 0x0000 to 0x002C, by word index (20_memory.md R60). -/
def controlReg (k : Nat) : Reg :=
  match k with
  | 0 => .ctrl
  | 1 => .status
  | 2 => .irqen
  | 3 => .dlen
  | 4 => .glen
  | 5 => .rlen
  | 6 => .xlen
  | 7 => .tcount
  | 8 => .tidx
  | 9 => .trecHdr
  | 10 => .capLmax
  | 11 => .capNmax
  | _ => .reserved

/-- The register at a word-aligned byte offset (20_memory.md R60). -/
def regAt (off : Nat) : Reg :=
  if off < 0x0030 then controlReg (off / 4)
  else if off < 0x0100 then .reserved
  else if off < 0x0180 then .gbuf ((off - 0x0100) / 4)
  else if off < 0x0200 then .rbuf ((off - 0x0180) / 4)
  else if off < 0x0280 then .trecBefore ((off - 0x0200) / 4)
  else if off < 0x0300 then .trecAfter ((off - 0x0280) / 4)
  else if off < 0x1000 then .reserved
  else if off < 0x2000 then .dbuf ((off - 0x1000) / 4)
  else if off < 0x3000 then .xbuf ((off - 0x2000) / 4)
  else .reserved

/-- `off(reg)`, the byte offset of a register (20_memory.md R60). A reserved offset has no name; 0x0030 stands for them. -/
def regOffset : Reg → Nat
  | .ctrl => 0x0000
  | .status => 0x0004
  | .irqen => 0x0008
  | .dlen => 0x000C
  | .glen => 0x0010
  | .rlen => 0x0014
  | .xlen => 0x0018
  | .tcount => 0x001C
  | .tidx => 0x0020
  | .trecHdr => 0x0024
  | .capLmax => 0x0028
  | .capNmax => 0x002C
  | .gbuf w => 0x0100 + 4 * w
  | .rbuf w => 0x0180 + 4 * w
  | .trecBefore w => 0x0200 + 4 * w
  | .trecAfter w => 0x0280 + 4 * w
  | .dbuf w => 0x1000 + 4 * w
  | .xbuf w => 0x2000 + 4 * w
  | .reserved => 0x0030

/-- The registers whose reads are draws while BUSY = 1 (20_memory.md R71). -/
def drawnWhileBusy : Reg → Bool
  | .rlen | .xlen | .tcount | .trecHdr | .rbuf _ | .xbuf _ | .trecBefore _ | .trecAfter _ => true
  | .ctrl | .status | .irqen | .dlen | .glen | .tidx | .capLmax | .capNmax | .gbuf _ | .dbuf _ | .reserved => false

/-- The trace record the views show: `T[TIDX]` when TIDX < TCOUNT (10_state.md R40). -/
def shownRecord (s : State) : Option TraceRec :=
  if s.regs.tidx.toNat < s.regs.tcount.toNat then some (traceRecord s s.regs.tidx.toNat) else none

/-- `TREC_HDR` of a record (30_encoding.md R90). -/
def traceHeader (r : TraceRec) : Word :=
  ((BitVec.ofBool r.xored).setWidth 32 <<< 31) ||| (BitVec.ofNat 32 r.width <<< 16) ||| BitVec.ofNat 32 r.off

/-- A window of the shown record, masked by its width and by the view's storage (20_memory.md R62, R70). -/
def windowView (s : State) (content : TraceRec → Bits) (w : Nat) : Word :=
  match shownRecord s with
  | some r => packWord (fun j => decide (j < r.width) && decide (j < s.cfg.nmax) && (content r).getD j false) w
  | none => 0

/-- What a read returns when it is not a draw (10_state.md section 3; 20_memory.md R62, R64, R70). -/
def regValue (s : State) : Reg → Word
  | .ctrl => s.regs.lastCmd.setWidth 32
  | .status => statusWord s.regs.status
  | .irqen => (BitVec.ofBool s.regs.irqEn).setWidth 32
  | .dlen => s.regs.dlen
  | .glen => s.regs.glen
  | .rlen => s.regs.rlen
  | .xlen => s.regs.xlen
  | .tcount => s.regs.tcount
  | .tidx => s.regs.tidx
  | .trecHdr => match shownRecord s with
    | some r => traceHeader r
    | none => 0
  | .capLmax => BitVec.ofNat 32 s.cfg.lmax
  | .capNmax => BitVec.ofNat 32 s.cfg.nmax
  | .gbuf w => packWord (gbufBit s) w
  | .rbuf w => packWord (fun j => decide (j < s.regs.rlen.toNat) && rbufBit s j) w
  | .trecBefore w => windowView s TraceRec.before w
  | .trecAfter w => windowView s TraceRec.after w
  | .dbuf w => packWord (dbufBit s) w
  | .xbuf w => packWord (fun j => decide (j < s.regs.xlen.toNat) && xbufBit s j) w
  | .reserved => 0

/-- A read of a register: a fresh draw of a result register while BUSY = 1 (20_memory.md R71), else its value. Only the
model's own draw counter can change (log entry 5). -/
def readReg (r : Reg) (s : State) : Word × State :=
  if s.regs.status.busy && drawnWhileBusy r then (Config.busyDraw s.draws, { s with draws := s.draws + 1 })
  else (regValue s r, s)

/-- `MemRead(off, width)` (20_memory.md R64, R66). -/
def memRead (width off : Nat) (s : State) : Result (Word × State) :=
  if admittedAccess width off then .next (readReg (regAt off) s) else .refused (.badAccess width off)

/-- A write of a register (20_memory.md R65). A CTRL write is a command word. RO, C and reserved offsets ignore it. -/
def writeReg (r : Reg) (v : Word) (s : State) : Result State :=
  match r with
  | .ctrl => exec (decodeWord v) s
  | .irqen => .next { s with regs := { s.regs with irqEn := v.getLsbD 0 } }
  | .dlen => .next { s with regs := { s.regs with dlen := v } }
  | .glen => .next { s with regs := { s.regs with glen := v } }
  | .tidx => .next { s with regs := { s.regs with tidx := v } }
  | .gbuf w => .next (writeGbufWord w v s)
  | .dbuf w => .next (writeDbufWord w v s)
  | .status | .rlen | .xlen | .tcount | .trecHdr | .capLmax | .capNmax | .rbuf _ | .trecBefore _ | .trecAfter _ | .xbuf _
  | .reserved => .next s

/-- `MemWrite(off, width, v)` (20_memory.md R65, R66). -/
def memWrite (width off : Nat) (v : Word) (s : State) : Result State :=
  if admittedAccess width off then writeReg (regAt off) v s else .refused (.badAccess width off)

end Sys2Proof.Machine
end

