-- ==== Sys2Proof/Machine/Engine.lean ====
section
/-! DEFINITION. The engine agent's steps (40_divider.md R113 to R115). -/

namespace Sys2Proof.Machine

/-- `EngineWindowStep()` (40_divider.md R113). -/
def engineWindowStep (s : State) : State :=
  let q := windowStep s.eng.wbuf s.eng.gL s.eng.i
  let s1 := if s.eng.trL then storeRecord s.eng.tc q.2 s else s
  { s1 with eng := { s.eng with wbuf := q.1, i := s.eng.i + 1, tc := if s.eng.trL then s.eng.tc + 1 else s.eng.tc } }

/-- The commit of the latched command (40_divider.md R114). -/
def commit (rem : Bits) (s : State) : State :=
  match s.eng.opL with
  | .divide => commitDivide rem s
  | .encode => commitEncode rem s
  | .verify => commitVerify rem s

/-- `EngineFinishStep()` (40_divider.md R114): every result register changes in this one step. -/
def engineFinishStep (s : State) : State :=
  let s1 := commit (remainder s.eng.wbuf s.eng.lw s.eng.nL) s
  { s1 with
    regs := { s1.regs with
      tcount := if s.eng.trL then BitVec.ofNat 32 s.eng.tc else 0
      status := finishFlags s.eng.trL s1.regs.status }
    eng := { s1.eng with phase := .idle } }

/-- The engine's one enabled step, if it has one (10_state.md R47): a window step while a window is left, then the finish
step. In IDLE the engine has no step and its turn changes nothing (60_exceptions.md R180; log entry 4). -/
def engineStep (s : State) : State :=
  match s.eng.phase with
  | .idle => s
  | .sweep => if s.eng.i + s.eng.nL ≤ s.eng.lw then engineWindowStep s else engineFinishStep s

/-- `k` engine steps one after another. -/
def engineSteps : Nat → State → State
  | 0, s => s
  | k + 1, s => engineSteps k (engineStep s)

end Sys2Proof.Machine
end

