-- ==== Sys2Proof/Machine/HostOps.lean ====
section
/-! DEFINITION. The host agent: the statements of 30_encoding.md R93, each step of them one access, and the expansions of
R94. -/

namespace Sys2Proof.Machine

/-- `t <- v`. -/
def setTemp (v : Word) (s : State) : State := { s with host := { s.host with t := v } }

/-- Put statements before the rest of the host's program. -/
def pushOps (ops : List HostOp) (s : State) : State := { s with host := { s.host with prog := ops ++ s.host.prog } }

/-- Record whether an assertion held (log entry 9). -/
def noteAssert (ok : Bool) (s : State) : State := { s with host := { s.host with assertsOk := s.host.assertsOk && ok } }

/-- `MOV dst, src` (30_encoding.md R93). -/
def hostMov (dst src : Reg) : List HostOp := [.rd (regOffset src), .wrT (regOffset dst)]

/-- `FLIP reg, mask` (30_encoding.md R93). -/
def hostFlip (r : Reg) (mask : Word) : List HostOp := [.rd (regOffset r), .wrTXor (regOffset r) mask]

/-- A command written to CTRL (30_encoding.md R94). -/
def hostCommand (i : Instr) : List HostOp := [.wr (regOffset .ctrl) (encodeWord i)]

/-- `WAITDONE` (30_encoding.md R94). -/
def hostWaitDone : List HostOp := [.poll (regOffset .status) 2 2]

/-- The writes of the words of `s` into the buffer whose word `w` is `buf w` (30_encoding.md R94, `word_w(s)`). -/
def hostLoadWords (buf : Nat → Reg) (s : Bits) : List HostOp :=
  (List.range (wordsFor s.length)).map (fun w => .wr (regOffset (buf w)) (packWord (fun j => s.getD j false) w))

/-- `LOADD "s"` (30_encoding.md R94). -/
def hostLoadD (s : Bits) : List HostOp := .wr (regOffset .dlen) (BitVec.ofNat 32 s.length) :: hostLoadWords .dbuf s

/-- `LOADG "s"` (30_encoding.md R94). -/
def hostLoadG (s : Bits) : List HostOp := .wr (regOffset .glen) (BitVec.ofNat 32 s.length) :: hostLoadWords .gbuf s

/-- What is left of `COPYXD` once `RD XLEN` has read `xlen` (30_encoding.md R94). -/
def copyXdRest (xlen : Word) : List HostOp :=
  .wrT (regOffset .dlen) :: (List.range (wordsFor xlen.toNat)).flatMap (fun w => hostMov (.dbuf w) (.xbuf w))

/-- One access of a host statement (30_encoding.md R93), the statement itself already taken off the program. POLL puts
itself back until its test holds; COPYXD puts back what is left of it. -/
def execHostOp (op : HostOp) (s : State) : Result State :=
  match op with
  | .wr off imm => memWrite 4 off imm s
  | .wrT off => memWrite 4 off s.host.t s
  | .wrTXor off mask => memWrite 4 off (s.host.t ^^^ mask) s
  | .rd off => onNext (memRead 4 off s) (fun p => .next (setTemp p.1 p.2))
  | .rdEq off imm => onNext (memRead 4 off s) (fun p => .next (noteAssert (p.1 == imm) p.2))
  | .poll off mask val =>
    onNext (memRead 4 off s) (fun p => .next (if p.1 &&& mask = val then p.2 else pushOps [.poll off mask val] p.2))
  | .copyXd => onNext (memRead 4 (regOffset .xlen) s) (fun p => .next (pushOps (copyXdRest p.1) (setTemp p.1 p.2)))
  | .readSized width off => onNext (memRead width off s) (fun p => .next (setTemp p.1 p.2))
  | .writeSized width off v => memWrite width off v s

/-- The host's turn: its next statement, or nothing if its program is over. -/
def hostStep (s : State) : Result State :=
  match s.host.prog with
  | [] => .next s
  | op :: rest => execHostOp op { s with host := { s.host with prog := rest } }

/-- One transition of the agent whose turn it is (20_memory.md R72). -/
def takeTurn (t : Turn) (s : State) : Result State :=
  match t with
  | .host => hostStep s
  | .engine => .next (engineStep s)
  | .reset => .next (resetBlock s)

/-- Whose turn it is when the schedule names none: an engine step that is enabled goes first, which keeps the weak
fairness of 70_reset_and_hazards.md R205 (log entry 3). -/
def defaultTurn (s : State) : Turn :=
  match s.eng.phase with
  | .sweep => .engine
  | .idle => .host

end Sys2Proof.Machine
end

