-- ==== Sys2Proof/Machine/Step.lean ====
section
/-! DEFINITION. One transition of the whole machine (20_memory.md R72), and how a command word comes to be the next one. -/

namespace Sys2Proof.Machine

/-- One atomic transition: of the agent the schedule names first, or of the default agent when it names none. -/
def step (s : State) : Host.Outcome State Fault Refusal :=
  match s.turns with
  | [] => takeTurn (defaultTurn s) s
  | t :: rest => takeTurn t { s with turns := rest }

/-- `s` with the host about to write the command word `w` to CTRL: the engine fetches nothing (10_state.md R23), and a
command is the value of one CTRL write. Log entry 2. -/
def State.withFetchWord (s : State) (_nbits w : Nat) : State :=
  { s with
    turns := .host :: s.turns
    host := { s.host with prog := .wr 0x0000 (BitVec.ofNat 32 w) :: s.host.prog } }

end Sys2Proof.Machine
end

