-- ==== Sys2Proof/Safety.lean ====
section
/-! DEFINITION. The terms claims are stated in: a legal launch, the results a command leaves, what a step keeps, and the
invariant of every reachable state (10_state.md R54). -/

namespace Sys2Proof.Machine

/-! ## Launches -/

/-- The operands pass every check of 60_exceptions.md R166 for the command `op`. -/
def LegalOperands (op : Op) (s : State) : Prop :=
  1 ≤ s.regs.dlen.toNat ∧ s.regs.dlen.toNat ≤ s.cfg.lmax ∧ 1 ≤ s.regs.glen.toNat ∧ s.regs.glen.toNat ≤ s.cfg.nmax ∧
    (op = .encode → s.regs.dlen.toNat + s.regs.glen.toNat - 1 ≤ s.cfg.lmax) ∧ gbufBit s 0 = true

/-- The six commands: the instruction, its OP and its T (30_encoding.md R82, R83). -/
def commands : List (Instr × Op × Bool) :=
  [(.divide, .divide, false), (.divideT, .divide, true), (.encode, .encode, false), (.encodeT, .encode, true),
    (.verify, .verify, false), (.verifyT, .verify, true)]

/-! ## Results (30_encoding.md R87) -/

/-- `RBUF.bit[0 .. RLEN-1]`: the remainder or checksum. -/
def resultBits (s : State) : Bits := (List.range s.regs.rlen.toNat).map (rbufBit s)

/-- `XBUF.bit[0 .. XLEN-1]`: the transmitted frame. -/
def frameBits (s : State) : Bits := (List.range s.regs.xlen.toNat).map (xbufBit s)

/-- `T[0 .. TCOUNT-1]`: the division trace. -/
def shownTrace (s : State) : List TraceRec := (List.range s.regs.tcount.toNat).map (traceRecord s)

/-- The end of a command as a model observes it (70_reset_and_hazards.md R206). -/
def CommandEnded (s : State) : Prop := s.eng.phase = .idle ∧ s.regs.status.done = true

/-! ## Frames -/

/-- The host-owned storage reads as before, bit by bit (20_memory.md R68; 40_divider.md R116). -/
def OperandBitsKept (s t : State) : Prop := ∀ j, dbufBit t j = dbufBit s j ∧ gbufBit t j = gbufBit s j

/-- All storage reads as before: every bit of the four buffers and every trace record. -/
def StorageKept (s t : State) : Prop :=
  OperandBitsKept s t ∧ ∀ j, rbufBit t j = rbufBit s j ∧ xbufBit t j = xbufBit s j ∧ traceRecord t j = traceRecord s j

/-- What only the host, the schedule, a draw or a reset changes. -/
def SurroundingsKept (s t : State) : Prop :=
  t.cfg = s.cfg ∧ t.host = s.host ∧ t.turns = s.turns ∧ t.draws = s.draws ∧ t.epoch = s.epoch

/-! ## The invariant -/

/-- BUSY and the phase agree, and what STATUS promises holds (10_state.md R54, points 1 to 4; R29, R38). -/
structure StatusSound (s : State) : Prop where
  busy_iff : s.regs.status.busy = decide (s.eng.phase = .sweep)
  busy_clear : s.regs.status.busy = true →
    s.regs.status.done = false ∧ s.regs.status.err = false ∧ s.regs.status.clean = false ∧ s.regs.status.traced = false
  err_done : s.regs.status.err = true →
    s.regs.status.done = true ∧ s.regs.status.errCode ≠ .none ∧ s.regs.rlen = 0 ∧ s.regs.xlen = 0 ∧ s.regs.tcount = 0 ∧
      s.regs.status.clean = false ∧ s.regs.status.traced = false
  no_err : s.regs.status.err = false → s.regs.status.errCode = .none ∧ s.regs.status.errArg = false
  clean_verify : s.regs.status.clean = true →
    s.regs.status.done = true ∧ s.regs.status.err = false ∧ s.regs.lastCmd.extractLsb' 0 2 = 0b10#2
  untraced : s.regs.status.done = true → s.regs.status.traced = false → s.regs.tcount = 0

/-- The lengths of the results fit their storage, and every record the views can show is the record of its own offset
(10_state.md R36 to R38, R46). -/
structure ResultsSound (s : State) : Prop where
  rlen_le : s.regs.rlen.toNat ≤ s.cfg.rmax
  xlen_le : s.regs.xlen.toNat ≤ s.cfg.wmax
  tcount_le : s.regs.tcount.toNat ≤ s.cfg.tmax
  records : ∀ r, r < s.regs.tcount.toNat → ∃ rec, cellAt s.mem.trace r = some rec ∧ rec.off = r ∧ 1 ≤ rec.width ∧
    rec.width ≤ s.cfg.nmax ∧ rec.before.length = rec.width ∧ rec.after.length = rec.width ∧
    rec.xored = rec.before.headD false

/-- In SWEEP the engine is partway through the sweep of its own snapshot (10_state.md R49 to R51, R54 points 5 and 6). -/
structure SweepSound (s : State) : Prop where
  len_pos : 1 ≤ s.eng.lenL
  gen_pos : 1 ≤ s.eng.nL
  gen_le : s.eng.nL ≤ s.cfg.nmax
  data_length : s.eng.dL.length = s.eng.lenL
  gen_length : s.eng.gL.length = s.eng.nL
  gen_leading : s.eng.gL.head? = some true
  buffer_length : s.eng.wbuf.length = s.eng.lw
  lw_eq : s.eng.lw = (workingBuffer s.eng.opL s.eng.dL (s.eng.nL - 1)).length
  lw_le : s.eng.lw ≤ s.cfg.wmax
  offset_le : s.eng.i ≤ windowCount s.eng.lw s.eng.nL
  count_on : s.eng.trL = true → s.eng.tc = s.eng.i
  count_off : s.eng.trL = false → s.eng.tc = 0
  command : s.regs.lastCmd = commandLow s.eng.opL s.eng.trL
  prefix_zero : ∀ j, j < s.eng.i → s.eng.wbuf[j]? = some false
  buffer_eq : s.eng.wbuf = (sweepSteps (workingBuffer s.eng.opL s.eng.dL (s.eng.nL - 1)) s.eng.gL s.eng.i).1
  trace_eq : s.eng.trL = true → ∀ r, r < s.eng.i →
    cellAt s.mem.trace r = (sweepSteps (workingBuffer s.eng.opL s.eng.dL (s.eng.nL - 1)) s.eng.gL s.eng.i).2[r]?

/-- The invariant of every reachable state. -/
structure Inv (s : State) : Prop where
  params : s.cfg.legal = true
  memory : s.mem.wf s.cfg = true
  status : StatusSound s
  results : ResultsSound s
  sweep : s.eng.phase = .sweep → SweepSound s

end Sys2Proof.Machine
end

