-- ==== Sys2Proof/Certificates/Slice0/Obligations.lean ====
section
/-! DEFINITION. The statements for the provers, one def Obligations.<Name> : Prop each. -/

open Sys2Proof Sys2Proof.Machine

/-! ## Encoding -/

/-- The words of 30_encoding.md R85, written out, decode to what the table says. -/
def Obligations.CommandWordsDecodeAsTheTableSays : Prop :=
  decodeWord 0x80000000#32 = .divide ∧ decodeWord 0x80000004#32 = .divideT ∧
  decodeWord 0x80000001#32 = .encode ∧ decodeWord 0x80000005#32 = .encodeT ∧
  decodeWord 0x80000002#32 = .verify ∧ decodeWord 0x80000006#32 = .verifyT ∧
  decodeWord 0x80000003#32 = .illegal 0 0 3 ∧ decodeWord 0x80000007#32 = .illegal 0 1 3 ∧
  decodeWord 0x8000000D#32 = .illegal 1 1 1 ∧ decodeWord 0xC0000000#32 = .illegal 0x8000000#28 0 0 ∧
  decodeWord 0x00000000#32 = .nop 0 ∧ decodeWord 0x7FFFFFFF#32 = .nop 0x7FFFFFFF#31

/-- Decoding the word of a well-formed instruction gives it back (30_encoding.md R80 to R85). -/
def Obligations.DecodeOfEncodeIsIdentity : Prop :=
  ∀ i : Instr, i.wellFormed = true →
    decodeWord (encodeWord i) = i ∧ decode 32 (encodeWord i).toNat = .ok i ∧
    decodeTableWord 32 (encodeWord i).toNat = some i

/-- Every 32-bit word is the word of exactly one well-formed instruction (30_encoding.md R84, R85). -/
def Obligations.EveryWordDecodesAndReencodes : Prop :=
  ∀ v : Word, (decodeWord v).wellFormed = true ∧ encodeWord (decodeWord v) = v

/-- A pattern that is not 32 bits is rejected by name (30_encoding.md R80). -/
def Obligations.PatternsThatAreNoWordAreRejected : Prop :=
  (∀ nbits w : Nat, nbits ≠ 32 → decode nbits w = .error (.notAWord nbits) ∧ decodeTableWord nbits w = none) ∧
  (∀ w : Nat, 2 ^ 32 ≤ w → decode 32 w = .error (.tooWide w) ∧ decodeTableWord 32 w = none)

/-! ## Steps and launches -/

/-- When the host's next statement writes a word to CTRL, the step is exec of the decoded word, the statement and the turn
taken off (20_memory.md R65, R76). The queue and the schedule are the model's (log entries 2 and 3). -/
def Obligations.StepRunsTheDecodedCommandWord : Prop :=
  (∀ (s : State) (v : Word) (rest : List Turn) (ops : List HostOp),
    s.turns = .host :: rest → s.host.prog = .wr 0x0000 v :: ops →
    step s = exec (decodeWord v) { s with turns := rest, host := { s.host with prog := ops } }) ∧
  (∀ (s : State) (v : Word) (ops : List HostOp),
    s.turns = [] → s.eng.phase = .idle → s.host.prog = .wr 0x0000 v :: ops →
    step s = exec (decodeWord v) { s with host := { s.host with prog := ops } }) ∧
  (∀ (s : State) (nbits w : Nat), step (s.withFetchWord nbits w) = exec (decodeWord (BitVec.ofNat 32 w)) s)

/-- NOP leaves the whole state as it is, as does every CTRL write with START = 0 (10_state.md R25; 30_encoding.md R94). -/
def Obligations.NopHasNoEffect : Prop :=
  (∀ (ignored : BitVec 31) (s : State), exec (.nop ignored) s = .next s) ∧
  (∀ (v : Word) (s : State), v.getLsbD 31 = false → memWrite 4 0x0000 v s = .next s)

/-- DIVIDE, DIVIDE.T, ENCODE, ENCODE.T, VERIFY and VERIFY.T with legal operands in IDLE: the next state is the accepted
launch of 40_divider.md R112, and nothing else changes. -/
def Obligations.AcceptedLaunchSnapshotsTheOperands : Prop :=
  ∀ (i : Instr) (op : Op) (tr : Bool), (i, op, tr) ∈ commands → ∀ s : State,
    s.eng.phase = .idle → LegalOperands op s →
    let n := s.regs.glen.toNat
    let w := if op = .encode then dividendBits s ++ List.replicate (n - 1) false else dividendBits s
    exec i s = .next
      { s with
        regs := { s.regs with
          lastCmd := commandLow op tr
          status := { busy := true, done := false, err := false, clean := false, errCode := .none, errArg := false,
                      dropped := false, traced := false } }
        eng := { phase := .sweep, opL := op, trL := tr, lenL := s.regs.dlen.toNat, nL := n, dL := dividendBits s,
                 gL := generatorBits s, wbuf := w, lw := w.length, i := 0, tc := 0 } }

/-- The checks of 60_exceptions.md R166 in their order: a launch in IDLE ends in the error of the first that fails. -/
def Obligations.LaunchReportsTheFirstFailingCheck : Prop :=
  (∀ (rsvd : BitVec 28) (t : BitVec 1) (op : BitVec 2) (s : State), s.eng.phase = .idle →
    exec (.illegal rsvd t op) s = .next (errorCompletion (.illegalCommand, false) (noteLaunch (t ++ op) s))) ∧
  ∀ (i : Instr) (op : Op) (tr : Bool), (i, op, tr) ∈ commands → ∀ s : State, s.eng.phase = .idle →
    let l := s.regs.dlen.toNat
    let n := s.regs.glen.toNat
    let lmax := s.cfg.lmax
    let nmax := s.cfg.nmax
    let reports := fun e : LaunchError => exec i s = .next (errorCompletion e (noteLaunch (commandLow op tr) s))
    (l = 0 → reports (.invalidInput, false)) ∧
    (lmax < l → reports (.capacity, false)) ∧
    (1 ≤ l → l ≤ lmax → n = 0 → reports (.invalidInput, true)) ∧
    (1 ≤ l → l ≤ lmax → nmax < n → reports (.capacity, true)) ∧
    (1 ≤ l → l ≤ lmax → 1 ≤ n → n ≤ nmax → op = .encode → lmax < l + n - 1 → reports (.capacity, false)) ∧
    (1 ≤ l → l ≤ lmax → 1 ≤ n → n ≤ nmax → (op = .encode → l + n - 1 ≤ lmax) → gbufBit s 0 = false →
      reports (.invalidGenerator, true)) ∧
    (1 ≤ l → l ≤ lmax → 1 ≤ n → n ≤ nmax → (op = .encode → l + n - 1 ≤ lmax) → gbufBit s 0 = true →
      ∃ t, exec i s = .next t ∧ t.eng.phase = .sweep ∧ t.regs.status.err = false)

/-- The error completion of 60_exceptions.md R163, field by field; afterwards every result view reads 0. -/
def Obligations.ErrorCompletionWritesOnlyItsFields : Prop :=
  ∀ (e : LaunchError) (s : State), s.eng.phase = .idle → s.regs.status.busy = false →
    let t := errorCompletion e s
    t = { s with
      regs := { s.regs with
        status := { s.regs.status with err := true, errCode := e.1, errArg := e.2, done := true, busy := false,
                                       clean := false, traced := false }
        rlen := 0, xlen := 0, tcount := 0 } } ∧
    (∀ w, regValue t (.rbuf w) = 0 ∧ regValue t (.xbuf w) = 0 ∧ regValue t (.trecBefore w) = 0 ∧
      regValue t (.trecAfter w) = 0) ∧
    regValue t .rlen = 0 ∧ regValue t .xlen = 0 ∧ regValue t .tcount = 0 ∧ regValue t .trecHdr = 0

/-- A CTRL write with START = 1 and OP = 11 or RSVD ≠ 0 ends, in IDLE, in ILLEGAL_COMMAND (60_exceptions.md R164), whatever
the operands are. -/
def Obligations.IllegalLaunchEndsInIllegalCommand : Prop :=
  ∀ (v : Word) (s : State), s.eng.phase = .idle → v.getLsbD 31 = true →
    (v.extractLsb' 3 28 ≠ 0 ∨ v.extractLsb' 0 2 = 0b11#2) →
    let t : State := { s with
      regs := { s.regs with
        lastCmd := v.extractLsb' 0 3
        status := { s.regs.status with err := true, errCode := .illegalCommand, errArg := false, done := true,
                                       clean := false, traced := false, dropped := false }
        rlen := 0, xlen := 0, tcount := 0 } }
    errCodeBits .illegalCommand = 3 ∧ memWrite 4 0x0000 v s = .next t ∧
    exec (.illegal (v.extractLsb' 3 28) (v.extractLsb' 2 1) (v.extractLsb' 0 2)) s = .next t

/-- A launch in SWEEP, legal or not, sets DROPPED and changes nothing else (60_exceptions.md R168). -/
def Obligations.LaunchDuringSweepIsDropped : Prop :=
  ∀ (v : Word) (s : State), s.eng.phase = .sweep → v.getLsbD 31 = true →
    exec (decodeWord v) s =
      .next { s with regs := { s.regs with status := { s.regs.status with dropped := true } } }

/-! ## The division -/

/-- One window step (40_divider.md R100), position by position. -/
def Obligations.WindowStepXorsTheGeneratorIn : Prop :=
  ∀ (w g : Bits) (i : Nat), g.head? = some true → i + g.length ≤ w.length →
    let w' := (windowStep w g i).1
    let r := (windowStep w g i).2
    w'.length = w.length ∧
    (∀ j, j < i ∨ i + g.length ≤ j → w'[j]? = w[j]?) ∧
    (w[i]? = some true → ∀ j, j < g.length →
      w'[i + j]? = some (xor (w.getD (i + j) false) (g.getD j false))) ∧
    (w[i]? = some false → w' = w) ∧
    w'[i]? = some false ∧
    r.off = i ∧ r.width = g.length ∧ r.before = (w.drop i).take g.length ∧ r.xored = w.getD i false ∧
    r.after = (w'.drop i).take g.length

/-- The trace of a division: one record per window, in order (40_divider.md R107). -/
def Obligations.TraceHoldsOneRecordPerWindow : Prop :=
  ∀ d g : Bits, 1 ≤ g.length → g.head? = some true →
    let recs := (mod2Div d g).2
    recs.length = d.length + 1 - g.length ∧
    ∀ r, r < recs.length → ∃ rec, recs[r]? = some rec ∧ rec = (windowStep (sweepSteps d g r).1 g r).2 ∧
      rec.off = r ∧ rec.width = g.length ∧ rec.before.length = g.length ∧ rec.after.length = g.length ∧
      (rec.xored = false → rec.after = rec.before) ∧ (rec.xored = true → rec.after = xorBits rec.before g)

/-- The remainder in the three cases of 40_divider.md R103, R104 and R105, and its length. -/
def Obligations.RemainderInEveryCase : Prop :=
  ∀ d g : Bits, 1 ≤ g.length →
    let n := g.length
    let rem := (mod2Div d g).1
    (n = 1 → rem = [false] ∧ (mod2Div d g).2.length = d.length ∧ ∀ r ∈ (mod2Div d g).2, r.width = 1) ∧
    (2 ≤ n → n - 1 ≤ d.length → rem = ((sweep d g).1.drop (d.length + 1 - n)).take (n - 1)) ∧
    (2 ≤ n → d.length = n - 1 → rem = d) ∧
    (2 ≤ n → d.length < n - 1 → rem = List.replicate (n - 1 - d.length) false ++ d ∧ (mod2Div d g).2 = []) ∧
    rem.length = if n = 1 then 1 else n - 1

/-- The remainder is the polynomial remainder over GF(2) (40_divider.md R110). The reading of a bit string as a polynomial
is 00_scope.md R10's, marked there as general knowledge (log entry 24). -/
def Obligations.RemainderIsThePolynomialRemainder : Prop :=
  let poly : Bits → Polynomial (ZMod 2) :=
    fun s => s.foldl (fun p b => p * Polynomial.X + Polynomial.C (if b then 1 else 0)) 0
  ∀ d g : Bits, 2 ≤ g.length → g.head? = some true →
    (mod2Div d g).1.length = g.length - 1 ∧ poly (mod2Div d g).1 = poly d %ₘ poly g

/-- The checksum and the frame of an encoding (41_encoder.md R142, R143). -/
def Obligations.FrameIsTheDataThenItsChecksum : Prop :=
  ∀ d g : Bits, 1 ≤ g.length →
    let k := g.length - 1
    let cs := (encodeFrame d g).1
    let frame := (encodeFrame d g).2
    frame = d ++ cs ∧ (k = 0 → cs = []) ∧ (1 ≤ k → cs = (mod2Div (d ++ List.replicate k false) g).1) ∧
    cs.length = k ∧ frame.length = d.length + k

/-- The verdict is 1 exactly when every remainder bit is 0 (42_verifier.md R151), in the pure function and in the finish
step. -/
def Obligations.VerdictIsAnAllZeroRemainder : Prop :=
  (∀ r g : Bits, (verifyFrame r g).1 = true ↔ ∀ b ∈ (verifyFrame r g).2, b = false) ∧
  ∀ s : State, s.eng.phase = .sweep → s.eng.lw < s.eng.i + s.eng.nL → s.eng.opL = .verify →
    ((engineStep s).regs.status.clean = true ↔ ∀ b ∈ remainder s.eng.wbuf s.eng.lw s.eng.nL, b = false)

/-- Every encoded frame verifies clean, with a remainder of zeros (41_encoder.md R145). -/
def Obligations.EncodedFrameVerifiesClean : Prop :=
  ∀ d g : Bits, 1 ≤ d.length → g.head? = some true →
    verifyFrame (encodeFrame d g).2 g = (true, List.replicate (remainderLength g.length) false)

/-- One flipped bit of an encoded frame is always detected when the generator has two or more 1 bits (42_verifier.md
R154). -/
def Obligations.SingleBitErrorIsDetected : Prop :=
  ∀ (d g : Bits) (p : Nat), 1 ≤ d.length → 2 ≤ g.length → g.head? = some true → 2 ≤ g.count true →
    p < (encodeFrame d g).2.length →
    (verifyFrame ((encodeFrame d g).2.set p (!(encodeFrame d g).2.getD p false)) g).1 = false

/-! ## The engine -/

/-- The window step of the engine (40_divider.md R113): what it writes, and that no register changes. -/
def Obligations.EngineWindowStepDoesOneWindow : Prop :=
  ∀ s : State, s.eng.phase = .sweep → s.eng.i + s.eng.nL ≤ s.eng.lw →
    let q := windowStep s.eng.wbuf s.eng.gL s.eng.i
    let t := engineStep s
    t.eng = { s.eng with
      wbuf := q.1, i := s.eng.i + 1, tc := if s.eng.trL = true then s.eng.tc + 1 else s.eng.tc } ∧
    t.regs = s.regs ∧ SurroundingsKept s t ∧ OperandBitsKept s t ∧
    ∀ j, rbufBit t j = rbufBit s j ∧ xbufBit t j = xbufBit s j ∧
      traceRecord t j = if s.eng.trL = true ∧ j = s.eng.tc then q.2 else traceRecord s j

/-- The finish step of the engine (40_divider.md R114), with the commit of each command. -/
def Obligations.EngineFinishStepCommitsEveryResult : Prop :=
  ∀ s : State, s.eng.phase = .sweep → s.eng.lw < s.eng.i + s.eng.nL →
    let rem := remainder s.eng.wbuf s.eng.lw s.eng.nL
    let k := s.eng.nL - 1
    let cs := if k = 0 then [] else rem
    let t := engineStep s
    let tcount : Word := if s.eng.trL = true then BitVec.ofNat 32 s.eng.tc else 0
    let flags := fun clean : Bool =>
      { s.regs.status with busy := false, done := true, clean := clean, traced := s.eng.trL }
    let result := fun bs : Bits => ∀ j, rbufBit t j =
      if j < bs.length then decide (j < s.cfg.rmax) && bs.getD j false else rbufBit s j
    let frame := fun bs : Bits => ∀ j, xbufBit t j =
      if j < bs.length then decide (j < s.cfg.wmax) && bs.getD j false else xbufBit s j
    (s.eng.opL = .divide → t.regs = { s.regs with
      rlen := BitVec.ofNat 32 rem.length, xlen := 0, tcount := tcount, status := flags false } ∧ result rem ∧ frame []) ∧
    (s.eng.opL = .encode → t.regs = { s.regs with
      rlen := BitVec.ofNat 32 cs.length, xlen := BitVec.ofNat 32 (s.eng.dL ++ cs).length, tcount := tcount,
      status := flags false } ∧ result cs ∧ frame (s.eng.dL ++ cs)) ∧
    (s.eng.opL = .verify → t.regs = { s.regs with
      rlen := BitVec.ofNat 32 rem.length, xlen := 0, tcount := tcount,
      status := flags (rem.all (fun b => !b)) } ∧ result rem ∧ frame []) ∧
    t.eng.phase = .idle ∧ SurroundingsKept s t ∧ OperandBitsKept s t ∧ ∀ j, traceRecord t j = traceRecord s j

/-- No engine step writes an operand, the schedule or the host; nothing after the launch writes the operand latches
(40_divider.md R116). -/
def Obligations.EngineStepsKeepTheOperands : Prop :=
  ∀ (k : Nat) (s : State),
    let t := engineSteps k s
    t.regs.dlen = s.regs.dlen ∧ t.regs.glen = s.regs.glen ∧ t.regs.tidx = s.regs.tidx ∧ t.regs.irqEn = s.regs.irqEn ∧
    t.regs.lastCmd = s.regs.lastCmd ∧ t.regs.status.dropped = s.regs.status.dropped ∧ SurroundingsKept s t ∧
    OperandBitsKept s t ∧
    (t.eng.phase = .sweep → t.eng.gL = s.eng.gL ∧ t.eng.dL = s.eng.dL ∧ t.eng.nL = s.eng.nL ∧ t.eng.lenL = s.eng.lenL ∧
      t.eng.opL = s.eng.opL ∧ t.eng.trL = s.eng.trL)

/-! ## Whole commands -/

/-- DIVIDE and DIVIDE.T from the launch to the end (40_divider.md R117): NW + 1 engine steps, then the remainder of
`Mod2Div` and, with T, its records; every other register and bit is as it was. -/
def Obligations.DivideRunsToItsRemainder : Prop :=
  ∀ (i : Instr) (tr : Bool), (i, tr) ∈ [(Instr.divide, false), (Instr.divideT, true)] → ∀ s : State,
    s.cfg.legal = true → s.eng.phase = .idle → LegalOperands .divide s →
    let out := mod2Div (dividendBits s) (generatorBits s)
    let nw := s.regs.dlen.toNat + 1 - s.regs.glen.toNat
    ∃ t, exec i s = .next t ∧ (∀ k, k ≤ nw → (engineSteps k t).eng.phase = .sweep) ∧
      let u := engineSteps (nw + 1) t
      u.eng.phase = .idle ∧
      u.regs = { s.regs with
        lastCmd := commandLow .divide tr
        status := { busy := false, done := true, err := false, clean := false, errCode := .none, errArg := false,
                    dropped := false, traced := tr }
        rlen := BitVec.ofNat 32 out.1.length, xlen := 0, tcount := if tr = true then BitVec.ofNat 32 nw else 0 } ∧
      resultBits u = out.1 ∧ (tr = true → shownTrace u = out.2) ∧
      SurroundingsKept s u ∧ OperandBitsKept s u ∧ (∀ j, out.1.length ≤ j → rbufBit u j = rbufBit s j) ∧
      (∀ j, xbufBit u j = xbufBit s j) ∧ (∀ r, tr = false ∨ nw ≤ r → traceRecord u r = traceRecord s r)

/-- ENCODE and ENCODE.T from the launch to the end (41_encoder.md R140): L + 1 engine steps, then the checksum and the
transmitted frame. -/
def Obligations.EncodeRunsToItsFrame : Prop :=
  ∀ (i : Instr) (tr : Bool), (i, tr) ∈ [(Instr.encode, false), (Instr.encodeT, true)] → ∀ s : State,
    s.cfg.legal = true → s.eng.phase = .idle → LegalOperands .encode s →
    let d := dividendBits s
    let g := generatorBits s
    let k := s.regs.glen.toNat - 1
    let l := s.regs.dlen.toNat
    ∃ t, exec i s = .next t ∧ (∀ m, m ≤ l → (engineSteps m t).eng.phase = .sweep) ∧
      let u := engineSteps (l + 1) t
      u.eng.phase = .idle ∧
      u.regs = { s.regs with
        lastCmd := commandLow .encode tr
        status := { busy := false, done := true, err := false, clean := false, errCode := .none, errArg := false,
                    dropped := false, traced := tr }
        rlen := BitVec.ofNat 32 k, xlen := BitVec.ofNat 32 (l + k),
        tcount := if tr = true then BitVec.ofNat 32 l else 0 } ∧
      resultBits u = (encodeFrame d g).1 ∧ frameBits u = (encodeFrame d g).2 ∧
      (tr = true → shownTrace u = (mod2Div (d ++ List.replicate k false) g).2) ∧
      SurroundingsKept s u ∧ OperandBitsKept s u ∧ (∀ j, k ≤ j → rbufBit u j = rbufBit s j) ∧
      (∀ j, l + k ≤ j → xbufBit u j = xbufBit s j) ∧ (∀ r, tr = false ∨ l ≤ r → traceRecord u r = traceRecord s r)

/-- VERIFY and VERIFY.T from the launch to the end (42_verifier.md R150): NW + 1 engine steps, then the remainder of the
unpadded frame and the verdict. -/
def Obligations.VerifyRunsToItsVerdict : Prop :=
  ∀ (i : Instr) (tr : Bool), (i, tr) ∈ [(Instr.verify, false), (Instr.verifyT, true)] → ∀ s : State,
    s.cfg.legal = true → s.eng.phase = .idle → LegalOperands .verify s →
    let out := mod2Div (dividendBits s) (generatorBits s)
    let nw := s.regs.dlen.toNat + 1 - s.regs.glen.toNat
    ∃ t, exec i s = .next t ∧ (∀ k, k ≤ nw → (engineSteps k t).eng.phase = .sweep) ∧
      let u := engineSteps (nw + 1) t
      u.eng.phase = .idle ∧
      u.regs = { s.regs with
        lastCmd := commandLow .verify tr
        status := { busy := false, done := true, err := false, clean := out.1.all (fun b => !b), errCode := .none,
                    errArg := false, dropped := false, traced := tr }
        rlen := BitVec.ofNat 32 out.1.length, xlen := 0, tcount := if tr = true then BitVec.ofNat 32 nw else 0 } ∧
      resultBits u = out.1 ∧ (tr = true → shownTrace u = out.2) ∧
      SurroundingsKept s u ∧ OperandBitsKept s u ∧ (∀ j, out.1.length ≤ j → rbufBit u j = rbufBit s j) ∧
      (∀ j, xbufBit u j = xbufBit s j) ∧ (∀ r, tr = false ∨ nw ≤ r → traceRecord u r = traceRecord s r)

/-- With T = 0 and T = 1 a command leaves the same results; only TCOUNT, TRACED, the trace memory and LASTCMD's own T bit
differ (40_divider.md R108). -/
def Obligations.TraceFlagChangesOnlyTheTrace : Prop :=
  ∀ (i iT : Instr) (op : Op),
    (i, iT, op) ∈ [(Instr.divide, Instr.divideT, Op.divide), (Instr.encode, Instr.encodeT, Op.encode),
      (Instr.verify, Instr.verifyT, Op.verify)] →
    ∀ s : State, s.eng.phase = .idle → LegalOperands op s →
    ∃ t tT, exec i s = .next t ∧ exec iT s = .next tT ∧
      ∀ k, let u := engineSteps k t
        let uT := engineSteps k tT
        u.eng.phase = uT.eng.phase ∧
        uT.regs = { u.regs with
          lastCmd := uT.regs.lastCmd, tcount := uT.regs.tcount,
          status := { u.regs.status with traced := uT.regs.status.traced } } ∧
        (∀ j, rbufBit uT j = rbufBit u j ∧ xbufBit uT j = xbufBit u j) ∧ OperandBitsKept u uT

/-- The round trip on the machine (41_encoder.md R145): a VERIFY of the frame an ENCODE left, with the same generator, ends
with CLEAN = 1 and a remainder of zeros. That the engine takes these steps rests on 70_reset_and_hazards.md R205. -/
def Obligations.VerifyOfAnEncodedFrameEndsClean : Prop :=
  ∀ s v : State, s.cfg.legal = true → v.cfg = s.cfg → s.eng.phase = .idle → v.eng.phase = .idle →
    LegalOperands .encode s →
    (∀ t, exec .encode s = .next t →
      dividendBits v = frameBits (engineSteps (s.regs.dlen.toNat + 1) t) ∧ generatorBits v = generatorBits s) →
    ∃ t, exec .verify v = .next t ∧
      let u := engineSteps (v.regs.dlen.toNat + 1 - v.regs.glen.toNat + 1) t
      CommandEnded u ∧ u.regs.status.err = false ∧ u.regs.status.clean = true ∧
      resultBits u = List.replicate (remainderLength s.regs.glen.toNat) false

/-- With the one-bit generator every accepted VERIFY ends clean with remainder "0" (42_verifier.md R155). -/
def Obligations.OneBitGeneratorAlwaysVerifiesClean : Prop :=
  ∀ (i : Instr), i ∈ [Instr.verify, Instr.verifyT] → ∀ s : State,
    s.cfg.legal = true → s.eng.phase = .idle → LegalOperands .verify s → s.regs.glen = 1 →
    ∃ t, exec i s = .next t ∧
      let u := engineSteps (s.regs.dlen.toNat + 1) t
      CommandEnded u ∧ u.regs.status.clean = true ∧ u.regs.rlen = 1 ∧ resultBits u = [false]

/-- Under the default schedule a running command ends after its remaining windows and one finish step, and not before
(40_divider.md R115; 70_reset_and_hazards.md R203). That an unscheduled step is the engine's is log entry 3's choice. -/
def Obligations.RunningCommandEndsAfterItsSteps : Prop :=
  ∀ s : State, Inv s → s.eng.phase = .sweep → s.turns = [] →
    let left := windowCount s.eng.lw s.eng.nL - s.eng.i
    (∀ m, m ≤ left → ∃ t : State, Host.Core.run Sys2Proof.core m s = .next t ∧ t.eng.phase = .sweep) ∧
    ∃ t : State, Host.Core.run Sys2Proof.core (left + 1) s = .next t ∧ CommandEnded t ∧ t.regs.status.err = false

/-- Whatever the host does while a command runs, in whatever interleaving without a reset, the engine is where it would be
without the host, and its next step commits the same results (10_state.md R49; 20_memory.md R68; 70_reset_and_hazards.md
R199). -/
def Obligations.HostNeverChangesARunningCommand : Prop :=
  ∀ (s u : State) (ts rest : List Turn), (∀ t ∈ ts, t ≠ .reset) →
    (∀ j, j ≤ ts.count .engine → (engineSteps j s).eng.phase = .sweep) →
    Host.Core.run Sys2Proof.core ts.length { s with turns := ts ++ rest } = .next u →
    let a := engineSteps (ts.count .engine) s
    u.eng = a.eng ∧
    (engineStep u).regs.rlen = (engineStep a).regs.rlen ∧ (engineStep u).regs.xlen = (engineStep a).regs.xlen ∧
    (engineStep u).regs.tcount = (engineStep a).regs.tcount ∧
    { (engineStep u).regs.status with dropped := false } = { (engineStep a).regs.status with dropped := false } ∧
    ∀ j, rbufBit (engineStep u) j = rbufBit (engineStep a) j ∧ xbufBit (engineStep u) j = xbufBit (engineStep a) j ∧
      traceRecord (engineStep u) j = traceRecord (engineStep a) j

/-! ## Reset and invariants -/

/-- The invariant holds after reset, in every legal configuration. -/
def Obligations.InvariantHoldsAtReset : Prop :=
  Inv State.reset ∧ ∀ p : Params, p.legal = true → Inv (State.resetWith p)

/-- Every step, of the host, the engine or reset, keeps the invariant of Safety.lean (10_state.md R54). -/
def Obligations.EveryStepKeepsTheInvariant : Prop :=
  ∀ s t : State, Inv s → step s = .next t → Inv t

/-- Reset at any time sets every register to its reset value and abandons a running command (70_reset_and_hazards.md
R190). -/
def Obligations.ResetSetsEveryRegister : Prop :=
  ∀ (s : State) (rest : List Turn), s.turns = .reset :: rest →
    ∃ t, step s = .next t ∧
      t.regs.lastCmd = 0 ∧ statusWord t.regs.status = 0 ∧ t.regs.irqEn = false ∧ t.regs.dlen = 0 ∧ t.regs.glen = 0 ∧
      t.regs.rlen = 0 ∧ t.regs.xlen = 0 ∧ t.regs.tcount = 0 ∧ t.regs.tidx = 0 ∧ t.eng.phase = .idle ∧ irq t = false ∧
      t.cfg = s.cfg ∧ t.host = s.host ∧ t.turns = rest ∧
      (∀ w, regValue t (.rbuf w) = 0 ∧ regValue t (.xbuf w) = 0 ∧ regValue t (.trecBefore w) = 0 ∧
        regValue t (.trecAfter w) = 0) ∧
      (∀ j, dbufBit t j = (decide (j < s.cfg.lmax) && Config.dbufDraw (s.epoch + 1) j) ∧
        gbufBit t j = (decide (j < s.cfg.nmax) && Config.gbufDraw (s.epoch + 1) j))

/-- What a host reads right after reset (10_state.md R53). -/
def Obligations.ResetStateReadsItsResetValues : Prop :=
  ∀ p : Params, p.legal = true →
    let s := State.resetWith p
    (∀ r ∈ [Reg.ctrl, .status, .irqen, .dlen, .glen, .rlen, .xlen, .tcount, .tidx, .trecHdr], regValue s r = 0) ∧
    (regValue s .capLmax).toNat = p.lmax ∧ (regValue s .capNmax).toNat = p.nmax ∧
    (∀ w, regValue s (.rbuf w) = 0 ∧ regValue s (.xbuf w) = 0 ∧ regValue s (.trecBefore w) = 0 ∧
      regValue s (.trecAfter w) = 0) ∧
    s.eng.phase = .idle ∧ irq s = false

/-- A command launched right after reset ends in INVALID_INPUT with ERRARG 0 (70_reset_and_hazards.md R193). -/
def Obligations.LaunchRightAfterResetIsInvalidInput : Prop :=
  ∀ (i : Instr) (op : Op) (tr : Bool), (i, op, tr) ∈ commands → ∀ p : Params,
    ∃ t, exec i (State.resetWith p) = .next t ∧ statusWord t.regs.status = 0x00000016#32 ∧ t.eng.phase = .idle

/-- No step changes the parameters (00_scope.md R6; 10_state.md R41). -/
def Obligations.StepsKeepTheParameters : Prop :=
  ∀ s t : State, step s = .next t → t.cfg = s.cfg

/-! ## The register window -/

/-- What a write at each offset of the map of 20_memory.md R60 does, and that it does nothing else (R65). -/
def Obligations.HostWriteReachesOnlyItsRegister : Prop :=
  ∀ (v : Word) (s : State),
    (v.getLsbD 31 = false → memWrite 4 0x0000 v s = .next s) ∧
    (v.getLsbD 31 = true → memWrite 4 0x0000 v s =
      launch (v.extractLsb' 0 3)
        (if v.extractLsb' 3 28 = 0 then
          (if v.extractLsb' 0 2 = 0#2 then some (.divide, v.getLsbD 2)
           else if v.extractLsb' 0 2 = 1#2 then some (.encode, v.getLsbD 2)
           else if v.extractLsb' 0 2 = 2#2 then some (.verify, v.getLsbD 2) else none)
         else none) s) ∧
    memWrite 4 0x0008 v s = .next { s with regs := { s.regs with irqEn := v.getLsbD 0 } } ∧
    memWrite 4 0x000C v s = .next { s with regs := { s.regs with dlen := v } } ∧
    memWrite 4 0x0010 v s = .next { s with regs := { s.regs with glen := v } } ∧
    memWrite 4 0x0020 v s = .next { s with regs := { s.regs with tidx := v } } ∧
    (∀ w, w < 32 → ∃ t, memWrite 4 (0x0100 + 4 * w) v s = .next t ∧ t.regs = s.regs ∧ t.eng = s.eng ∧
      SurroundingsKept s t ∧ ∀ j,
        gbufBit t j = (if j / 32 = w then decide (j < s.cfg.nmax) && v.getLsbD (31 - j % 32) else gbufBit s j) ∧
        dbufBit t j = dbufBit s j ∧ rbufBit t j = rbufBit s j ∧ xbufBit t j = xbufBit s j ∧
        traceRecord t j = traceRecord s j) ∧
    (∀ w, w < 1024 → ∃ t, memWrite 4 (0x1000 + 4 * w) v s = .next t ∧ t.regs = s.regs ∧ t.eng = s.eng ∧
      SurroundingsKept s t ∧ ∀ j,
        dbufBit t j = (if j / 32 = w then decide (j < s.cfg.lmax) && v.getLsbD (31 - j % 32) else dbufBit s j) ∧
        gbufBit t j = gbufBit s j ∧ rbufBit t j = rbufBit s j ∧ xbufBit t j = xbufBit s j ∧
        traceRecord t j = traceRecord s j) ∧
    (∀ off ∈ [0x0004, 0x0014, 0x0018, 0x001C, 0x0024, 0x0028, 0x002C], memWrite 4 off v s = .next s) ∧
    (∀ w, w < 32 → memWrite 4 (0x0180 + 4 * w) v s = .next s ∧ memWrite 4 (0x0200 + 4 * w) v s = .next s ∧
      memWrite 4 (0x0280 + 4 * w) v s = .next s) ∧
    (∀ w, w < 1024 → memWrite 4 (0x2000 + 4 * w) v s = .next s) ∧
    (∀ off, off % 4 = 0 → (0x0030 ≤ off ∧ off < 0x0100 ∨ 0x0300 ≤ off ∧ off < 0x1000 ∨ 0x3000 ≤ off ∧ off < 0x4000) →
      memWrite 4 off v s = .next s)

/-- Bit `b` of buffer word `w` is string position 32w + 31 - b, and the operand strings take the positions in order
(20_memory.md R63). -/
def Obligations.BufferWordsArePackedMsbFirst : Prop :=
  (∀ (s : State) (w b : Nat), b < 32 →
    (w < 1024 → ∃ v, memRead 4 (regOffset (.dbuf w)) s = .next (v, s) ∧ v.getLsbD b = dbufBit s (32 * w + 31 - b)) ∧
    (w < 32 → ∃ v, memRead 4 (regOffset (.gbuf w)) s = .next (v, s) ∧ v.getLsbD b = gbufBit s (32 * w + 31 - b))) ∧
  (∀ (s : State) (j : Nat), j < s.regs.dlen.toNat → (dividendBits s)[j]? = some (dbufBit s j)) ∧
  (∀ (s : State) (j : Nat), j < s.regs.glen.toNat → (generatorBits s)[j]? = some (gbufBit s j))

/-- A buffer word reads back what was stored of the word written: the bits inside the storage, 0 beyond it (20_memory.md
R62, R64, R65). -/
def Obligations.BufferWordReadsBackItsStoredBits : Prop :=
  ∀ (v : Word) (s : State) (w : Nat),
    (w < 1024 → ∃ t x, memWrite 4 (regOffset (.dbuf w)) v s = .next t ∧
      memRead 4 (regOffset (.dbuf w)) t = .next (x, t) ∧
      ∀ b, b < 32 → x.getLsbD b = (decide (32 * w + 31 - b < s.cfg.lmax) && v.getLsbD b)) ∧
    (w < 32 → ∃ t x, memWrite 4 (regOffset (.gbuf w)) v s = .next t ∧
      memRead 4 (regOffset (.gbuf w)) t = .next (x, t) ∧
      ∀ b, b < 32 → x.getLsbD b = (decide (32 * w + 31 - b < s.cfg.nmax) && v.getLsbD b))

/-- The result views are masked by their lengths (20_memory.md R70), when no command runs. -/
def Obligations.ResultViewsAreMaskedByTheirLengths : Prop :=
  ∀ (s : State) (w b : Nat), s.regs.status.busy = false → b < 32 →
    let j := 32 * w + 31 - b
    (w < 32 → ∃ v, memRead 4 (regOffset (.rbuf w)) s = .next (v, s) ∧
      v.getLsbD b = if j < s.regs.rlen.toNat then rbufBit s j else false) ∧
    (w < 1024 → ∃ v, memRead 4 (regOffset (.xbuf w)) s = .next (v, s) ∧
      v.getLsbD b = if j < s.regs.xlen.toNat then xbufBit s j else false) ∧
    (w < 32 → (s.regs.tidx.toNat < s.regs.tcount.toNat → (traceRecord s s.regs.tidx.toNat).width ≤ s.cfg.nmax) → ∃ x y,
      memRead 4 (regOffset (.trecBefore w)) s = .next (x, s) ∧ memRead 4 (regOffset (.trecAfter w)) s = .next (y, s) ∧
      let r := traceRecord s s.regs.tidx.toNat
      x.getLsbD b = (if s.regs.tidx.toNat < s.regs.tcount.toNat ∧ j < r.width then r.before.getD j false else false) ∧
      y.getLsbD b = (if s.regs.tidx.toNat < s.regs.tcount.toNat ∧ j < r.width then r.after.getD j false else false))

/-- While BUSY, a read of a result register is draw number `draws` and uses it up; every other register still reads its
value (20_memory.md R71). The draws are free values (log entry 5). -/
def Obligations.BusyReadsOfResultsAreFreshDraws : Prop :=
  ∀ s : State, s.regs.status.busy = true →
    (∀ r ∈ [Reg.rlen, .xlen, .tcount, .trecHdr],
      memRead 4 (regOffset r) s = .next (Config.busyDraw s.draws, { s with draws := s.draws + 1 })) ∧
    (∀ w, w < 32 → ∀ r ∈ [Reg.rbuf w, .trecBefore w, .trecAfter w],
      memRead 4 (regOffset r) s = .next (Config.busyDraw s.draws, { s with draws := s.draws + 1 })) ∧
    (∀ w, w < 1024 →
      memRead 4 (regOffset (.xbuf w)) s = .next (Config.busyDraw s.draws, { s with draws := s.draws + 1 })) ∧
    (∀ r ∈ [Reg.ctrl, .status, .irqen, .dlen, .glen, .tidx, .capLmax, .capNmax],
      memRead 4 (regOffset r) s = .next (regValue s r, s)) ∧
    (∀ w, w < 32 → memRead 4 (regOffset (.gbuf w)) s = .next (regValue s (.gbuf w), s)) ∧
    (∀ w, w < 1024 → memRead 4 (regOffset (.dbuf w)) s = .next (regValue s (.dbuf w), s))

/-- Only an aligned word inside the window is admitted; any other access is refused by name (20_memory.md R66). -/
def Obligations.OnlyAlignedWordAccessesAreAdmitted : Prop :=
  ∀ (width off : Nat) (v : Word) (s : State),
    (width = 4 ∧ off % 4 = 0 ∧ off < 0x4000 →
      (∃ x t, memRead width off s = .next (x, t)) ∧ ∃ t, memWrite width off v s = .next t) ∧
    (¬ (width = 4 ∧ off % 4 = 0 ∧ off < 0x4000) →
      memRead width off s = .refused (.badAccess width off) ∧ memWrite width off v s = .refused (.badAccess width off))

/-- A read changes nothing but the model's draw counter, and not even that when no command runs (20_memory.md R64, R69). -/
def Obligations.ReadsHaveNoSideEffect : Prop :=
  ∀ (off : Nat) (s : State), off % 4 = 0 → off < 0x4000 →
    ∃ v d, memRead 4 off s = .next (v, { s with draws := d }) ∧ (s.regs.status.busy = false → d = s.draws)

/-- Reserved offsets and bits read 0 and ignore writes; RO and C registers ignore writes; a launch with a reserved CTRL bit
set is the exception (20_memory.md R61). -/
def Obligations.ReservedSpaceReadsZeroAndIgnoresWrites : Prop :=
  (∀ (off : Nat) (v : Word) (s : State), off % 4 = 0 →
    (0x0030 ≤ off ∧ off < 0x0100 ∨ 0x0300 ≤ off ∧ off < 0x1000 ∨ 0x3000 ≤ off ∧ off < 0x4000) →
    memRead 4 off s = .next (0, s) ∧ memWrite 4 off v s = .next s) ∧
  (∀ (r : Reg) (v : Word) (s : State), r.wellFormed = true →
    r ∉ [Reg.ctrl, .irqen, .dlen, .glen, .tidx] → (∀ w, r ≠ .gbuf w ∧ r ≠ .dbuf w) →
    memWrite 4 (regOffset r) v s = .next s) ∧
  (∀ (s : State) (b : Nat), (3 ≤ b → (regValue s .ctrl).getLsbD b = false) ∧
    (11 ≤ b → (regValue s .status).getLsbD b = false) ∧ (1 ≤ b → (regValue s .irqen).getLsbD b = false)) ∧
  (∀ (s : State) (v : Word), memWrite 4 (regOffset .irqen) v s = memWrite 4 (regOffset .irqen) (v &&& 1) s) ∧
  (∀ (s : State) (b : Nat), Inv s → s.regs.status.busy = false → 27 ≤ b → b ≤ 30 →
    (regValue s .trecHdr).getLsbD b = false) ∧
  (∀ (v : Word) (s : State), s.eng.phase = .idle → v.getLsbD 31 = true → v.extractLsb' 3 28 ≠ 0 →
    memWrite 4 (regOffset .ctrl) v s =
      .next (errorCompletion (.illegalCommand, false) (noteLaunch (v.extractLsb' 0 3) s)))

/-- CAP_LMAX and CAP_NMAX read the parameters and ignore writes (10_state.md R41). -/
def Obligations.CapRegistersReadTheParameters : Prop :=
  ∀ (s : State) (v : Word), s.cfg.legal = true →
    (∃ x, memRead 4 (regOffset .capLmax) s = .next (x, s) ∧ x.toNat = s.cfg.lmax) ∧
    (∃ x, memRead 4 (regOffset .capNmax) s = .next (x, s) ∧ x.toNat = s.cfg.nmax) ∧
    memWrite 4 (regOffset .capLmax) v s = .next s ∧ memWrite 4 (regOffset .capNmax) v s = .next s

/-- IRQEN holds bit 0 alone and resets to 0 (10_state.md R33). -/
def Obligations.IrqenHoldsBitZeroAlone : Prop :=
  (∀ (s : State) (v : Word), ∃ t, memWrite 4 (regOffset .irqen) v s = .next t ∧
    memRead 4 (regOffset .irqen) t = .next (v &&& 1, t)) ∧
  ∀ p : Params, memRead 4 (regOffset .irqen) (State.resetWith p) = .next (0, State.resetWith p)

/-- DLEN, GLEN and TIDX hold all 32 bits of the last word written and read it back, also while a command runs (10_state.md
R34, R35, R39). -/
def Obligations.LengthAndIndexRegistersHoldWholeWords : Prop :=
  ∀ (r : Reg), r ∈ [Reg.dlen, .glen, .tidx] → ∀ (s : State) (v : Word),
    ∃ t, memWrite 4 (regOffset r) v s = .next t ∧ memRead 4 (regOffset r) t = .next (v, t)

/-- CTRL reads the OP and T of the last launch that was not dropped (10_state.md R25). -/
def Obligations.CtrlReadsBackTheLastLaunch : Prop :=
  ∀ (v : Word) (s t : State), memWrite 4 (regOffset .ctrl) v s = .next t →
    memRead 4 (regOffset .ctrl) t =
      .next ((if v.getLsbD 31 = true ∧ s.eng.phase = .idle then (v.extractLsb' 0 3).setWidth 32
        else s.regs.lastCmd.setWidth 32), t)

/-- The bits of the STATUS word, and the five error codes (10_state.md R26; 30_encoding.md R88). -/
def Obligations.StatusWordLayout : Prop :=
  ∀ st : Status,
    let v := statusWord st
    v.getLsbD 0 = st.busy ∧ v.getLsbD 1 = st.done ∧ v.getLsbD 2 = st.err ∧ v.getLsbD 3 = st.clean ∧
    v.extractLsb' 4 4 = errCodeBits st.errCode ∧ v.getLsbD 8 = st.errArg ∧ v.getLsbD 9 = st.dropped ∧
    v.getLsbD 10 = st.traced ∧ v.extractLsb' 11 21 = 0 ∧ (errCodeBits st.errCode).toNat ≤ 4 ∧
    errCodeBits .none = 0 ∧ errCodeBits .invalidInput = 1 ∧ errCodeBits .invalidGenerator = 2 ∧
    errCodeBits .illegalCommand = 3 ∧ errCodeBits .capacity = 4

/-- TREC_HDR shows XORED, WIDTH and OFF of the selected record, 0 past the last record, and a draw while BUSY
(30_encoding.md R90). -/
def Obligations.TraceHeaderShowsTheSelectedRecord : Prop :=
  ∀ s : State, Inv s →
    let r := traceRecord s s.regs.tidx.toNat
    (s.regs.status.busy = false → s.regs.tidx.toNat < s.regs.tcount.toNat →
      ∃ v, memRead 4 (regOffset .trecHdr) s = .next (v, s) ∧ v.getLsbD 31 = r.xored ∧ v.extractLsb' 27 4 = 0 ∧
        (v.extractLsb' 16 11).toNat = r.width ∧ (v.extractLsb' 0 16).toNat = r.off ∧ r.off = s.regs.tidx.toNat) ∧
    (s.regs.status.busy = false → s.regs.tcount.toNat ≤ s.regs.tidx.toNat →
      memRead 4 (regOffset .trecHdr) s = .next (0, s)) ∧
    (s.regs.status.busy = true →
      memRead 4 (regOffset .trecHdr) s = .next (Config.busyDraw s.draws, { s with draws := s.draws + 1 }))

/-- The interrupt line is DONE AND EN; with EN it rises when a command ends, in success or in error, and an accepted launch
lowers it (60_exceptions.md R171). -/
def Obligations.InterruptFollowsCompletion : Prop :=
  (∀ s : State, irq s = true ↔ s.regs.status.done = true ∧ s.regs.irqEn = true) ∧
  (∀ s : State, s.eng.phase = .sweep → s.eng.lw < s.eng.i + s.eng.nL → irq (engineStep s) = s.regs.irqEn) ∧
  (∀ (e : LaunchError) (s : State), irq (errorCompletion e s) = s.regs.irqEn) ∧
  (∀ (i : Instr) (op : Op) (tr : Bool), (i, op, tr) ∈ commands → ∀ s : State, s.eng.phase = .idle → LegalOperands op s →
    ∃ t, exec i s = .next t ∧ irq t = false)

/-! ## The host -/

/-- No step is refused but for an access the block does not admit, and a step of a program of well-formed statements answers
a next state (20_memory.md R66; 60_exceptions.md R160). -/
def Obligations.OnlyBadAccessesStop : Prop :=
  (∀ (s : State) (r : Refusal), step s = .refused r →
    ∃ width off, r = .badAccess width off ∧ ¬ (width = 4 ∧ off % 4 = 0 ∧ off < 0x4000)) ∧
  ∀ s : State, (∀ op ∈ s.host.prog, op.wellFormed = true) → ∃ t, step s = .next t

/-- WR of any word to any register, and RD, MOV, FLIP, POLL and RD == of a register that is not a draw (30_encoding.md
R93). That POLL and RD == leave `t` alone is log entry 10's and 9's choice. -/
def Obligations.HostStatementsActAsTheirAccesses : Prop :=
  (∀ (s : State) (d : Reg) (v : Word) (ops : List HostOp) (rest : List Turn),
    s.turns = .host :: rest → s.host.prog = .wr (regOffset d) v :: ops →
    step s = memWrite 4 (regOffset d) v { s with turns := rest, host := { s.host with prog := ops } }) ∧
  ∀ (s : State) (r d : Reg) (ops : List HostOp) (rest : List Turn), r.wellFormed = true → d.wellFormed = true →
    s.regs.status.busy = false ∨ drawnWhileBusy r = false →
    let x := regValue s r
    (s.turns = .host :: rest → s.host.prog = .rd (regOffset r) :: ops →
      step s = .next { s with turns := rest, host := { s.host with prog := ops, t := x } }) ∧
    (s.turns = .host :: .host :: rest → s.host.prog = hostMov d r ++ ops →
      Host.Core.run Sys2Proof.core 2 s =
        memWrite 4 (regOffset d) x { s with turns := rest, host := { s.host with prog := ops, t := x } }) ∧
    (∀ mask : Word, s.turns = .host :: .host :: rest → s.host.prog = hostFlip r mask ++ ops →
      Host.Core.run Sys2Proof.core 2 s =
        memWrite 4 (regOffset r) (x ^^^ mask) { s with turns := rest, host := { s.host with prog := ops, t := x } }) ∧
    (∀ mask val : Word, s.turns = .host :: rest → s.host.prog = .poll (regOffset r) mask val :: ops →
      step s = .next { s with
        turns := rest, host := if x &&& mask = val then { s.host with prog := ops } else s.host }) ∧
    (∀ imm : Word, s.turns = .host :: rest → s.host.prog = .rdEq (regOffset r) imm :: ops →
      step s = .next { s with
        turns := rest, host := { s.host with prog := ops, assertsOk := s.host.assertsOk && (x == imm) } })

/-- LOADD and LOADG leave the string as the operand, and nothing of it outside the storage (30_encoding.md R94; 20_memory.md
R63). -/
def Obligations.LoadLeavesTheStringAsOperand : Prop :=
  ∀ (s : State) (str : Bits) (ops : List HostOp) (rest : List Turn), s.cfg.legal = true →
    s.turns = List.replicate (1 + wordsFor str.length) .host ++ rest →
    (str.length ≤ s.cfg.lmax → s.host.prog = hostLoadD str ++ ops →
      ∃ t : State, Host.Core.run Sys2Proof.core (1 + wordsFor str.length) s = .next t ∧ dividendBits t = str ∧
        generatorBits t = generatorBits s ∧ t.eng = s.eng ∧ t.regs = { s.regs with dlen := BitVec.ofNat 32 str.length } ∧
        t.turns = rest ∧ t.host = { s.host with prog := ops }) ∧
    (str.length ≤ s.cfg.nmax → s.host.prog = hostLoadG str ++ ops →
      ∃ t : State, Host.Core.run Sys2Proof.core (1 + wordsFor str.length) s = .next t ∧ generatorBits t = str ∧
        dividendBits t = dividendBits s ∧ t.eng = s.eng ∧ t.regs = { s.regs with glen := BitVec.ofNat 32 str.length } ∧
        t.turns = rest ∧ t.host = { s.host with prog := ops })

/-- COPYXD leaves the transmitted frame as the next command's data (30_encoding.md R94; 70_reset_and_hazards.md R200). -/
def Obligations.CopyXdMovesTheFrame : Prop :=
  ∀ (s : State) (ops : List HostOp) (rest : List Turn), s.cfg.legal = true → s.regs.status.busy = false →
    s.regs.xlen.toNat ≤ s.cfg.lmax →
    s.turns = List.replicate (2 + 2 * wordsFor s.regs.xlen.toNat) .host ++ rest → s.host.prog = .copyXd :: ops →
    ∃ t : State, Host.Core.run Sys2Proof.core (2 + 2 * wordsFor s.regs.xlen.toNat) s = .next t ∧
      dividendBits t = frameBits s ∧ t.regs = { s.regs with dlen := s.regs.xlen } ∧
      generatorBits t = generatorBits s ∧ t.eng = s.eng ∧ t.turns = rest ∧ t.host.prog = ops

/-! ## The map, and programs that never stop -/

/-- Every row of the map of 20_memory.md R60, in numbers: which register stands at which offset, and both ends of every
range. -/
def Obligations.RegisterMapIsTheTable : Prop :=
  (∀ p ∈ [(0x0000, Reg.ctrl), (0x0004, .status), (0x0008, .irqen), (0x000C, .dlen), (0x0010, .glen), (0x0014, .rlen),
      (0x0018, .xlen), (0x001C, .tcount), (0x0020, .tidx), (0x0024, .trecHdr), (0x0028, .capLmax), (0x002C, .capNmax)],
    regAt p.1 = p.2 ∧ regOffset p.2 = p.1) ∧
  (∀ w, w < 32 →
    (regAt (0x0100 + 4 * w) = .gbuf w ∧ regOffset (.gbuf w) = 0x0100 + 4 * w) ∧
    (regAt (0x0180 + 4 * w) = .rbuf w ∧ regOffset (.rbuf w) = 0x0180 + 4 * w) ∧
    (regAt (0x0200 + 4 * w) = .trecBefore w ∧ regOffset (.trecBefore w) = 0x0200 + 4 * w) ∧
    (regAt (0x0280 + 4 * w) = .trecAfter w ∧ regOffset (.trecAfter w) = 0x0280 + 4 * w)) ∧
  (∀ w, w < 1024 →
    (regAt (0x1000 + 4 * w) = .dbuf w ∧ regOffset (.dbuf w) = 0x1000 + 4 * w) ∧
    (regAt (0x2000 + 4 * w) = .xbuf w ∧ regOffset (.xbuf w) = 0x2000 + 4 * w)) ∧
  (∀ off, (0x0030 ≤ off ∧ off ≤ 0x00FF ∨ 0x0300 ≤ off ∧ off ≤ 0x0FFF ∨ 0x3000 ≤ off ∧ off ≤ 0x3FFF) →
    regAt off = .reserved) ∧
  (regAt 0x017C = .gbuf 31 ∧ regAt 0x01FC = .rbuf 31 ∧ regAt 0x027C = .trecBefore 31 ∧ regAt 0x02FC = .trecAfter 31 ∧
    regAt 0x1FFC = .dbuf 1023 ∧ regAt 0x2FFC = .xbuf 1023)

/-- A host program of well-formed statements stays one at every step that does not start a COPYXD while a command runs, so by
OnlyBadAccessesStop it never stops (20_memory.md R66; 30_encoding.md R94; 70_reset_and_hazards.md R197). A COPYXD that reads
a draw may go past the window: log entry 11. -/
def Obligations.StepsKeepHostProgramsWellFormed : Prop :=
  ∀ s t : State, Inv s → (∀ op ∈ s.host.prog, op.wellFormed = true) →
    (s.regs.status.busy = true → s.host.prog.head? ≠ some .copyXd) → step s = .next t →
    ∀ op ∈ t.host.prog, op.wellFormed = true
end

