-- ==== Sys2Proof/Laws/State.lean ====
section
/-! SUPPORT. For each operation that changes the state, one lemma per field of State, so that no proof unfolds a record
update. -/

namespace Sys2Proof.Machine

@[simp] theorem writeGbufWord_cfg (w : Nat) (v : Word) (s : State) : (writeGbufWord w v s).cfg = s.cfg := rfl
@[simp] theorem writeGbufWord_regs (w : Nat) (v : Word) (s : State) : (writeGbufWord w v s).regs = s.regs := rfl
@[simp] theorem writeGbufWord_mem (w : Nat) (v : Word) (s : State) : (writeGbufWord w v s).mem = { s.mem with gbuf := splice (32 * w) (storableBits s.cfg.nmax w v) s.mem.gbuf } := rfl
@[simp] theorem writeGbufWord_eng (w : Nat) (v : Word) (s : State) : (writeGbufWord w v s).eng = s.eng := rfl
@[simp] theorem writeGbufWord_host (w : Nat) (v : Word) (s : State) : (writeGbufWord w v s).host = s.host := rfl
@[simp] theorem writeGbufWord_turns (w : Nat) (v : Word) (s : State) : (writeGbufWord w v s).turns = s.turns := rfl
@[simp] theorem writeGbufWord_draws (w : Nat) (v : Word) (s : State) : (writeGbufWord w v s).draws = s.draws := rfl
@[simp] theorem writeGbufWord_epoch (w : Nat) (v : Word) (s : State) : (writeGbufWord w v s).epoch = s.epoch := rfl

@[simp] theorem writeDbufWord_cfg (w : Nat) (v : Word) (s : State) : (writeDbufWord w v s).cfg = s.cfg := rfl
@[simp] theorem writeDbufWord_regs (w : Nat) (v : Word) (s : State) : (writeDbufWord w v s).regs = s.regs := rfl
@[simp] theorem writeDbufWord_mem (w : Nat) (v : Word) (s : State) : (writeDbufWord w v s).mem = { s.mem with dbuf := splice (32 * w) (storableBits s.cfg.lmax w v) s.mem.dbuf } := rfl
@[simp] theorem writeDbufWord_eng (w : Nat) (v : Word) (s : State) : (writeDbufWord w v s).eng = s.eng := rfl
@[simp] theorem writeDbufWord_host (w : Nat) (v : Word) (s : State) : (writeDbufWord w v s).host = s.host := rfl
@[simp] theorem writeDbufWord_turns (w : Nat) (v : Word) (s : State) : (writeDbufWord w v s).turns = s.turns := rfl
@[simp] theorem writeDbufWord_draws (w : Nat) (v : Word) (s : State) : (writeDbufWord w v s).draws = s.draws := rfl
@[simp] theorem writeDbufWord_epoch (w : Nat) (v : Word) (s : State) : (writeDbufWord w v s).epoch = s.epoch := rfl

@[simp] theorem storeResult_cfg (bs : Bits) (s : State) : (storeResult bs s).cfg = s.cfg := rfl
@[simp] theorem storeResult_regs (bs : Bits) (s : State) : (storeResult bs s).regs = { s.regs with rlen := BitVec.ofNat 32 bs.length } := rfl
@[simp] theorem storeResult_mem (bs : Bits) (s : State) : (storeResult bs s).mem = { s.mem with rbuf := splice 0 bs s.mem.rbuf } := rfl
@[simp] theorem storeResult_eng (bs : Bits) (s : State) : (storeResult bs s).eng = s.eng := rfl
@[simp] theorem storeResult_host (bs : Bits) (s : State) : (storeResult bs s).host = s.host := rfl
@[simp] theorem storeResult_turns (bs : Bits) (s : State) : (storeResult bs s).turns = s.turns := rfl
@[simp] theorem storeResult_draws (bs : Bits) (s : State) : (storeResult bs s).draws = s.draws := rfl
@[simp] theorem storeResult_epoch (bs : Bits) (s : State) : (storeResult bs s).epoch = s.epoch := rfl

@[simp] theorem storeFrame_cfg (bs : Bits) (s : State) : (storeFrame bs s).cfg = s.cfg := rfl
@[simp] theorem storeFrame_regs (bs : Bits) (s : State) : (storeFrame bs s).regs = { s.regs with xlen := BitVec.ofNat 32 bs.length } := rfl
@[simp] theorem storeFrame_mem (bs : Bits) (s : State) : (storeFrame bs s).mem = { s.mem with xbuf := splice 0 bs s.mem.xbuf } := rfl
@[simp] theorem storeFrame_eng (bs : Bits) (s : State) : (storeFrame bs s).eng = s.eng := rfl
@[simp] theorem storeFrame_host (bs : Bits) (s : State) : (storeFrame bs s).host = s.host := rfl
@[simp] theorem storeFrame_turns (bs : Bits) (s : State) : (storeFrame bs s).turns = s.turns := rfl
@[simp] theorem storeFrame_draws (bs : Bits) (s : State) : (storeFrame bs s).draws = s.draws := rfl
@[simp] theorem storeFrame_epoch (bs : Bits) (s : State) : (storeFrame bs s).epoch = s.epoch := rfl

@[simp] theorem clearFrame_cfg (s : State) : (clearFrame s).cfg = s.cfg := rfl
@[simp] theorem clearFrame_regs (s : State) : (clearFrame s).regs = { s.regs with xlen := 0 } := rfl
@[simp] theorem clearFrame_mem (s : State) : (clearFrame s).mem = s.mem := rfl
@[simp] theorem clearFrame_eng (s : State) : (clearFrame s).eng = s.eng := rfl
@[simp] theorem clearFrame_host (s : State) : (clearFrame s).host = s.host := rfl
@[simp] theorem clearFrame_turns (s : State) : (clearFrame s).turns = s.turns := rfl
@[simp] theorem clearFrame_draws (s : State) : (clearFrame s).draws = s.draws := rfl
@[simp] theorem clearFrame_epoch (s : State) : (clearFrame s).epoch = s.epoch := rfl

@[simp] theorem storeRecord_cfg (r : Nat) (rec : TraceRec) (s : State) : (storeRecord r rec s).cfg = s.cfg := rfl
@[simp] theorem storeRecord_regs (r : Nat) (rec : TraceRec) (s : State) : (storeRecord r rec s).regs = s.regs := rfl
@[simp] theorem storeRecord_mem (r : Nat) (rec : TraceRec) (s : State) : (storeRecord r rec s).mem = { s.mem with trace := splice r [rec] s.mem.trace } := rfl
@[simp] theorem storeRecord_eng (r : Nat) (rec : TraceRec) (s : State) : (storeRecord r rec s).eng = s.eng := rfl
@[simp] theorem storeRecord_host (r : Nat) (rec : TraceRec) (s : State) : (storeRecord r rec s).host = s.host := rfl
@[simp] theorem storeRecord_turns (r : Nat) (rec : TraceRec) (s : State) : (storeRecord r rec s).turns = s.turns := rfl
@[simp] theorem storeRecord_draws (r : Nat) (rec : TraceRec) (s : State) : (storeRecord r rec s).draws = s.draws := rfl
@[simp] theorem storeRecord_epoch (r : Nat) (rec : TraceRec) (s : State) : (storeRecord r rec s).epoch = s.epoch := rfl

@[simp] theorem updateStatus_cfg (f : Status → Status) (s : State) : (updateStatus f s).cfg = s.cfg := rfl
@[simp] theorem updateStatus_regs (f : Status → Status) (s : State) : (updateStatus f s).regs = { s.regs with status := f s.regs.status } := rfl
@[simp] theorem updateStatus_mem (f : Status → Status) (s : State) : (updateStatus f s).mem = s.mem := rfl
@[simp] theorem updateStatus_eng (f : Status → Status) (s : State) : (updateStatus f s).eng = s.eng := rfl
@[simp] theorem updateStatus_host (f : Status → Status) (s : State) : (updateStatus f s).host = s.host := rfl
@[simp] theorem updateStatus_turns (f : Status → Status) (s : State) : (updateStatus f s).turns = s.turns := rfl
@[simp] theorem updateStatus_draws (f : Status → Status) (s : State) : (updateStatus f s).draws = s.draws := rfl
@[simp] theorem updateStatus_epoch (f : Status → Status) (s : State) : (updateStatus f s).epoch = s.epoch := rfl

@[simp] theorem setClean_cfg (c : Bool) (s : State) : (setClean c s).cfg = s.cfg := rfl
@[simp] theorem setClean_regs (c : Bool) (s : State) : (setClean c s).regs = { s.regs with status := { s.regs.status with clean := c } } := rfl
@[simp] theorem setClean_mem (c : Bool) (s : State) : (setClean c s).mem = s.mem := rfl
@[simp] theorem setClean_eng (c : Bool) (s : State) : (setClean c s).eng = s.eng := rfl
@[simp] theorem setClean_host (c : Bool) (s : State) : (setClean c s).host = s.host := rfl
@[simp] theorem setClean_turns (c : Bool) (s : State) : (setClean c s).turns = s.turns := rfl
@[simp] theorem setClean_draws (c : Bool) (s : State) : (setClean c s).draws = s.draws := rfl
@[simp] theorem setClean_epoch (c : Bool) (s : State) : (setClean c s).epoch = s.epoch := rfl

@[simp] theorem dropLaunch_cfg (s : State) : (dropLaunch s).cfg = s.cfg := rfl
@[simp] theorem dropLaunch_regs (s : State) : (dropLaunch s).regs = { s.regs with status := { s.regs.status with dropped := true } } := rfl
@[simp] theorem dropLaunch_mem (s : State) : (dropLaunch s).mem = s.mem := rfl
@[simp] theorem dropLaunch_eng (s : State) : (dropLaunch s).eng = s.eng := rfl
@[simp] theorem dropLaunch_host (s : State) : (dropLaunch s).host = s.host := rfl
@[simp] theorem dropLaunch_turns (s : State) : (dropLaunch s).turns = s.turns := rfl
@[simp] theorem dropLaunch_draws (s : State) : (dropLaunch s).draws = s.draws := rfl
@[simp] theorem dropLaunch_epoch (s : State) : (dropLaunch s).epoch = s.epoch := rfl

@[simp] theorem noteLaunch_cfg (low : BitVec 3) (s : State) : (noteLaunch low s).cfg = s.cfg := rfl
@[simp] theorem noteLaunch_regs (low : BitVec 3) (s : State) : (noteLaunch low s).regs = { s.regs with lastCmd := low, status := { s.regs.status with dropped := false } } := rfl
@[simp] theorem noteLaunch_mem (low : BitVec 3) (s : State) : (noteLaunch low s).mem = s.mem := rfl
@[simp] theorem noteLaunch_eng (low : BitVec 3) (s : State) : (noteLaunch low s).eng = s.eng := rfl
@[simp] theorem noteLaunch_host (low : BitVec 3) (s : State) : (noteLaunch low s).host = s.host := rfl
@[simp] theorem noteLaunch_turns (low : BitVec 3) (s : State) : (noteLaunch low s).turns = s.turns := rfl
@[simp] theorem noteLaunch_draws (low : BitVec 3) (s : State) : (noteLaunch low s).draws = s.draws := rfl
@[simp] theorem noteLaunch_epoch (low : BitVec 3) (s : State) : (noteLaunch low s).epoch = s.epoch := rfl

@[simp] theorem errorCompletion_cfg (e : LaunchError) (s : State) : (errorCompletion e s).cfg = s.cfg := rfl
@[simp] theorem errorCompletion_regs (e : LaunchError) (s : State) : (errorCompletion e s).regs = { s.regs with status := errorFlags e.1 e.2 s.regs.status, rlen := 0, xlen := 0, tcount := 0 } := rfl
@[simp] theorem errorCompletion_mem (e : LaunchError) (s : State) : (errorCompletion e s).mem = s.mem := rfl
@[simp] theorem errorCompletion_eng (e : LaunchError) (s : State) : (errorCompletion e s).eng = s.eng := rfl
@[simp] theorem errorCompletion_host (e : LaunchError) (s : State) : (errorCompletion e s).host = s.host := rfl
@[simp] theorem errorCompletion_turns (e : LaunchError) (s : State) : (errorCompletion e s).turns = s.turns := rfl
@[simp] theorem errorCompletion_draws (e : LaunchError) (s : State) : (errorCompletion e s).draws = s.draws := rfl
@[simp] theorem errorCompletion_epoch (e : LaunchError) (s : State) : (errorCompletion e s).epoch = s.epoch := rfl

@[simp] theorem resetBlock_cfg (s : State) : (resetBlock s).cfg = s.cfg := rfl
@[simp] theorem resetBlock_regs (s : State) : (resetBlock s).regs = Regs.reset := rfl
@[simp] theorem resetBlock_mem (s : State) : (resetBlock s).mem = Memory.reset := rfl
@[simp] theorem resetBlock_eng (s : State) : (resetBlock s).eng = Engine.reset := rfl
@[simp] theorem resetBlock_host (s : State) : (resetBlock s).host = s.host := rfl
@[simp] theorem resetBlock_turns (s : State) : (resetBlock s).turns = s.turns := rfl
@[simp] theorem resetBlock_draws (s : State) : (resetBlock s).draws = s.draws := rfl
@[simp] theorem resetBlock_epoch (s : State) : (resetBlock s).epoch = s.epoch + 1 := rfl

@[simp] theorem accept_cfg (op : Op) (tr : Bool) (s : State) : (accept op tr s).cfg = s.cfg := rfl
@[simp] theorem accept_regs (op : Op) (tr : Bool) (s : State) : (accept op tr s).regs = { s.regs with status := acceptFlags s.regs.status } := rfl
@[simp] theorem accept_mem (op : Op) (tr : Bool) (s : State) : (accept op tr s).mem = s.mem := rfl
@[simp] theorem accept_eng (op : Op) (tr : Bool) (s : State) : (accept op tr s).eng = acceptedEngine op tr s := rfl
@[simp] theorem accept_host (op : Op) (tr : Bool) (s : State) : (accept op tr s).host = s.host := rfl
@[simp] theorem accept_turns (op : Op) (tr : Bool) (s : State) : (accept op tr s).turns = s.turns := rfl
@[simp] theorem accept_draws (op : Op) (tr : Bool) (s : State) : (accept op tr s).draws = s.draws := rfl
@[simp] theorem accept_epoch (op : Op) (tr : Bool) (s : State) : (accept op tr s).epoch = s.epoch := rfl

@[simp] theorem setTemp_cfg (v : Word) (s : State) : (setTemp v s).cfg = s.cfg := rfl
@[simp] theorem setTemp_regs (v : Word) (s : State) : (setTemp v s).regs = s.regs := rfl
@[simp] theorem setTemp_mem (v : Word) (s : State) : (setTemp v s).mem = s.mem := rfl
@[simp] theorem setTemp_eng (v : Word) (s : State) : (setTemp v s).eng = s.eng := rfl
@[simp] theorem setTemp_host (v : Word) (s : State) : (setTemp v s).host = { s.host with t := v } := rfl
@[simp] theorem setTemp_turns (v : Word) (s : State) : (setTemp v s).turns = s.turns := rfl
@[simp] theorem setTemp_draws (v : Word) (s : State) : (setTemp v s).draws = s.draws := rfl
@[simp] theorem setTemp_epoch (v : Word) (s : State) : (setTemp v s).epoch = s.epoch := rfl

@[simp] theorem pushOps_cfg (ops : List HostOp) (s : State) : (pushOps ops s).cfg = s.cfg := rfl
@[simp] theorem pushOps_regs (ops : List HostOp) (s : State) : (pushOps ops s).regs = s.regs := rfl
@[simp] theorem pushOps_mem (ops : List HostOp) (s : State) : (pushOps ops s).mem = s.mem := rfl
@[simp] theorem pushOps_eng (ops : List HostOp) (s : State) : (pushOps ops s).eng = s.eng := rfl
@[simp] theorem pushOps_host (ops : List HostOp) (s : State) : (pushOps ops s).host = { s.host with prog := ops ++ s.host.prog } := rfl
@[simp] theorem pushOps_turns (ops : List HostOp) (s : State) : (pushOps ops s).turns = s.turns := rfl
@[simp] theorem pushOps_draws (ops : List HostOp) (s : State) : (pushOps ops s).draws = s.draws := rfl
@[simp] theorem pushOps_epoch (ops : List HostOp) (s : State) : (pushOps ops s).epoch = s.epoch := rfl

@[simp] theorem noteAssert_cfg (ok : Bool) (s : State) : (noteAssert ok s).cfg = s.cfg := rfl
@[simp] theorem noteAssert_regs (ok : Bool) (s : State) : (noteAssert ok s).regs = s.regs := rfl
@[simp] theorem noteAssert_mem (ok : Bool) (s : State) : (noteAssert ok s).mem = s.mem := rfl
@[simp] theorem noteAssert_eng (ok : Bool) (s : State) : (noteAssert ok s).eng = s.eng := rfl
@[simp] theorem noteAssert_host (ok : Bool) (s : State) : (noteAssert ok s).host = { s.host with assertsOk := s.host.assertsOk && ok } := rfl
@[simp] theorem noteAssert_turns (ok : Bool) (s : State) : (noteAssert ok s).turns = s.turns := rfl
@[simp] theorem noteAssert_draws (ok : Bool) (s : State) : (noteAssert ok s).draws = s.draws := rfl
@[simp] theorem noteAssert_epoch (ok : Bool) (s : State) : (noteAssert ok s).epoch = s.epoch := rfl

end Sys2Proof.Machine
end

