-- ==== Sys2Proof/Laws/Memory.lean ====
section
/-! SUPPORT. What storage reads after a write, and that every write keeps its canonical form. -/

namespace Sys2Proof.Machine

/-! ## Cells -/

theorem cellAt_append {α : Type} (as bs : Cells α) (j : Nat) :
    cellAt (as ++ bs) j = (cellAt as j).or (cellAt bs j) := by
  induction as with
  | nil => simp [cellAt]
  | cons c as ih =>
    obtain ⟨k, a⟩ := c
    by_cases h : k = j <;> simp [cellAt, h, ih]

theorem cellAt_filter {α : Type} (p : Nat → Bool) (cs : Cells α) (j : Nat) :
    cellAt (cs.filter (fun c => p c.1)) j = if p j then cellAt cs j else none := by
  induction cs with
  | nil => simp [cellAt]
  | cons c cs ih =>
    obtain ⟨k, a⟩ := c
    by_cases hk : k = j
    · subst hk
      by_cases hp : p k <;> simp [hp, cellAt, ih]
    · by_cases hp : p k <;> simp [hp, cellAt, ih, hk]

theorem cellAt_cellsFrom {α : Type} (start : Nat) (as : List α) (j : Nat) :
    cellAt (cellsFrom start as) j = if start ≤ j then as[j - start]? else none := by
  induction as generalizing start with
  | nil => simp [cellsFrom, cellAt]
  | cons a as ih =>
    by_cases hj : start = j
    · subst hj; simp [cellsFrom, cellAt]
    · simp only [cellsFrom, cellAt, hj, if_false, ih]
      by_cases hlt : start + 1 ≤ j
      · have h1 : start ≤ j := by omega
        have h2 : j - start = (j - (start + 1)) + 1 := by omega
        simp [hlt, h1, h2]
      · have h1 : ¬ start ≤ j := by omega
        simp [hlt, h1]

/-- The one thing to know of a write: the positions written hold what was written, every other position is as it was. -/
theorem cellAt_splice {α : Type} (start : Nat) (as : List α) (cs : Cells α) (j : Nat) :
    cellAt (splice start as cs) j =
      if start ≤ j ∧ j < start + as.length then as[j - start]? else cellAt cs j := by
  have lo := cellAt_filter (fun k => decide (k < start)) cs j
  have hi := cellAt_filter (fun k => decide (start + as.length ≤ k)) cs j
  simp only [splice, cellAt_append, lo, hi, cellAt_cellsFrom, decide_eq_true_eq]
  by_cases h1 : j < start
  · have a1 : ¬ start ≤ j := by omega
    have a2 : ¬ start + as.length ≤ j := by omega
    simp [h1, a1, a2]
  · have a1 : start ≤ j := by omega
    by_cases h2 : j < start + as.length
    · have a2 : ¬ start + as.length ≤ j := by omega
      simp [h1, a1, a2, h2]
    · have a2 : start + as.length ≤ j := by omega
      have a3 : as[j - start]? = none := by simp; omega
      simp [h1, a1, a2, h2, a3]

/-- The canonical form, said without recursion. -/
theorem cellsWf_iff {α : Type} (size : Nat) (cs : Cells α) :
    cellsWf size cs = true ↔ cs.Pairwise (fun a b => a.1 < b.1) ∧ ∀ c ∈ cs, c.1 < size := by
  induction cs with
  | nil => simp [cellsWf]
  | cons c cs ih =>
    obtain ⟨k, a⟩ := c
    simp only [cellsWf, Bool.and_eq_true, decide_eq_true_eq, List.all_eq_true, ih, List.pairwise_cons, List.mem_cons,
      forall_eq_or_imp]
    constructor
    · rintro ⟨⟨h1, h2⟩, h3, h4⟩; exact ⟨⟨h2, h3⟩, h1, h4⟩
    · rintro ⟨⟨h2, h3⟩, h1, h4⟩; exact ⟨⟨h1, h2⟩, h3, h4⟩

theorem mem_cellsFrom {α : Type} (start : Nat) (as : List α) (c : Nat × α) (h : c ∈ cellsFrom start as) :
    start ≤ c.1 ∧ c.1 < start + as.length := by
  induction as generalizing start with
  | nil => simp [cellsFrom] at h
  | cons a as ih =>
    simp only [cellsFrom, List.mem_cons] at h
    rcases h with rfl | h
    · simp
    · have := ih (start + 1) h
      simp only [List.length_cons]; omega

theorem cellsFrom_pairwise {α : Type} (start : Nat) (as : List α) :
    (cellsFrom start as).Pairwise (fun a b => a.1 < b.1) := by
  induction as generalizing start with
  | nil => simp [cellsFrom]
  | cons a as ih =>
    simp only [cellsFrom, List.pairwise_cons]
    refine ⟨fun c hc => ?_, ih _⟩
    have := mem_cellsFrom _ _ _ hc
    omega

/-- A write inside the storage keeps the canonical form. -/
theorem cellsWf_splice {α : Type} (size start : Nat) (as : List α) (cs : Cells α) (h : cellsWf size cs = true)
    (hfit : as = [] ∨ start + as.length ≤ size) : cellsWf size (splice start as cs) = true := by
  rw [cellsWf_iff] at h ⊢
  obtain ⟨hp, hs⟩ := h
  constructor
  · simp only [splice, List.pairwise_append, List.mem_append, List.mem_filter, decide_eq_true_eq]
    refine ⟨⟨hp.filter _, cellsFrom_pairwise _ _, ?_⟩, hp.filter _, ?_⟩
    · rintro a ⟨-, ha⟩ b hb
      have := mem_cellsFrom _ _ _ hb
      omega
    · rintro a (⟨-, ha⟩ | ha) b ⟨-, hb⟩
      · omega
      · have := mem_cellsFrom _ _ _ ha
        omega
  · intro c hc
    simp only [splice, List.mem_append, List.mem_filter, decide_eq_true_eq] at hc
    rcases hc with (⟨hc, -⟩ | hc) | ⟨hc, -⟩
    · exact hs _ hc
    · have := mem_cellsFrom _ _ _ hc
      rcases hfit with rfl | hfit
      · simp [cellsFrom] at hc
      · omega
    · exact hs _ hc

/-! ## Packing -/

@[simp] theorem unpackWord_length (v : Word) : (unpackWord v).length = 32 := by simp [unpackWord]

theorem natOfBits_append (a : Bits) (b : Bool) : natOfBits (a ++ [b]) = 2 * natOfBits a + b.toNat := by
  simp [natOfBits]

theorem natOfBits_testBit (bs : Bits) (b : Nat) (h : b < bs.length) :
    (natOfBits bs).testBit b = bs[bs.length - 1 - b]'(by omega) := by
  induction bs using List.reverseRecOn generalizing b with
  | nil => simp at h
  | append_singleton as a ih =>
    rw [natOfBits_append]
    cases b with
    | zero => cases a <;> simp [Nat.testBit_zero, Bool.toNat]
    | succ b =>
      have hb : b < as.length := by simp at h; omega
      have e : (2 * natOfBits as + a.toNat) / 2 = natOfBits as := by cases a <;> (simp; try omega)
      rw [Nat.testBit_succ, e, ih b hb]
      simp only [List.length_append, List.length_singleton]
      rw [List.getElem_append_left (by omega)]
      congr 1
      omega

/-- Bit `b` of a packed word is string position 32w + 31 - b (20_memory.md R63). -/
theorem packWord_getLsbD (f : Nat → Bool) (w b : Nat) (h : b < 32) :
    (packWord f w).getLsbD b = f (32 * w + (31 - b)) := by
  simp only [packWord, BitVec.getLsbD_ofNat, h, decide_true, Bool.true_and]
  rw [natOfBits_testBit _ _ (by simpa using h)]
  simp

theorem unpackWord_getElem? (v : Word) (k : Nat) : (unpackWord v)[k]? = if k < 32 then some (v.getLsbD (31 - k)) else none := by
  by_cases h : k < 32 <;> simp [unpackWord, h]

theorem storableBits_length (size w : Nat) (v : Word) : (storableBits size w v).length = min (size - 32 * w) 32 := by
  simp [storableBits]

/-! ## Storage bits after a write -/

/-- A bit after a write: what was written where it was written, the old bit elsewhere. -/
theorem storedBit_splice (size : Nat) (draw : Nat → Bool) (start : Nat) (as : Bits) (cs : Cells Bool) (j : Nat) :
    storedBit size draw (splice start as cs) j =
      if start ≤ j ∧ j < start + as.length then decide (j < size) && as.getD (j - start) false
      else storedBit size draw cs j := by
  simp only [storedBit, cellAt_splice]
  split
  · next h =>
    have : j - start < as.length := by omega
    simp [this]
  · rfl

/-- The bits of a buffer word after the host wrote it (20_memory.md R62, R65). -/
theorem storedBit_writeWord (size : Nat) (draw : Nat → Bool) (w : Nat) (v : Word) (cs : Cells Bool) (j : Nat) :
    storedBit size draw (splice (32 * w) (storableBits size w v) cs) j =
      if j / 32 = w then decide (j < size) && v.getLsbD (31 - j % 32) else storedBit size draw cs j := by
  rw [storedBit_splice, storableBits_length]
  by_cases hw : j / 32 = w
  · by_cases hs : j < size
    · have h1 : 32 * w ≤ j ∧ j < 32 * w + min (size - 32 * w) 32 := by omega
      have h2 : j - 32 * w = j % 32 := by omega
      have h3 : j % 32 < size - 32 * w := by omega
      have h4 : j % 32 < 32 := by omega
      simp only [h1, and_self, if_true, hw, hs, decide_true, Bool.true_and, h2]
      rw [List.getD_eq_getElem?_getD, storableBits, List.getElem?_take, if_pos h3, unpackWord_getElem?, if_pos h4]
      rfl
    · have h1 : ¬ (32 * w ≤ j ∧ j < 32 * w + min (size - 32 * w) 32) := by omega
      simp [h1, hw, hs, storedBit]
  · have h1 : ¬ (32 * w ≤ j ∧ j < 32 * w + min (size - 32 * w) 32) := by omega
    simp [h1, hw]

theorem dbufBit_writeDbufWord (w : Nat) (v : Word) (s : State) (j : Nat) :
    dbufBit (writeDbufWord w v s) j =
      if j / 32 = w then decide (j < s.cfg.lmax) && v.getLsbD (31 - j % 32) else dbufBit s j := by
  simp [dbufBit, storedBit_writeWord]

theorem gbufBit_writeGbufWord (w : Nat) (v : Word) (s : State) (j : Nat) :
    gbufBit (writeGbufWord w v s) j =
      if j / 32 = w then decide (j < s.cfg.nmax) && v.getLsbD (31 - j % 32) else gbufBit s j := by
  simp [gbufBit, storedBit_writeWord]

theorem rbufBit_storeResult (bs : Bits) (s : State) (j : Nat) :
    rbufBit (storeResult bs s) j = if j < bs.length then decide (j < s.cfg.rmax) && bs.getD j false else rbufBit s j := by
  simp [rbufBit, storedBit_splice]

theorem xbufBit_storeFrame (bs : Bits) (s : State) (j : Nat) :
    xbufBit (storeFrame bs s) j = if j < bs.length then decide (j < s.cfg.wmax) && bs.getD j false else xbufBit s j := by
  simp [xbufBit, storedBit_splice]

theorem traceRecord_storeRecord (r : Nat) (rec : TraceRec) (s : State) (j : Nat) :
    traceRecord (storeRecord r rec s) j = if j = r then rec else traceRecord s j := by
  simp only [traceRecord, storeRecord_mem, storeRecord_epoch, cellAt_splice, List.length_singleton]
  by_cases h : j = r
  · subst h; simp
  · have : ¬ (r ≤ j ∧ j < r + 1) := by omega
    rw [if_neg this, if_neg h]

/-! ## The canonical form is kept by every memory operation, and reset has it -/

theorem memory_wf_iff (p : Params) (m : Memory) : m.wf p = true ↔
    cellsWf p.lmax m.dbuf = true ∧ cellsWf p.nmax m.gbuf = true ∧ cellsWf p.rmax m.rbuf = true ∧
      cellsWf p.wmax m.xbuf = true ∧ cellsWf p.tmax m.trace = true := by
  simp [Memory.wf, and_assoc]

theorem memory_wf_reset (p : Params) : Memory.reset.wf p = true := by
  simp [memory_wf_iff, Memory.reset, cellsWf]

theorem storable_fits (size w : Nat) (v : Word) :
    storableBits size w v = [] ∨ 32 * w + (storableBits size w v).length ≤ size := by
  by_cases h : size ≤ 32 * w
  · left; have : size - 32 * w = 0 := by omega
    simp [storableBits, this]
  · right; rw [storableBits_length]; omega

theorem memory_wf_writeDbufWord (w : Nat) (v : Word) (s : State) (h : s.mem.wf s.cfg = true) :
    (writeDbufWord w v s).mem.wf s.cfg = true := by
  rw [memory_wf_iff] at h ⊢
  exact ⟨cellsWf_splice _ _ _ _ h.1 (storable_fits _ _ _), h.2⟩

theorem memory_wf_writeGbufWord (w : Nat) (v : Word) (s : State) (h : s.mem.wf s.cfg = true) :
    (writeGbufWord w v s).mem.wf s.cfg = true := by
  rw [memory_wf_iff] at h ⊢
  exact ⟨h.1, cellsWf_splice _ _ _ _ h.2.1 (storable_fits _ _ _), h.2.2⟩

theorem memory_wf_storeResult (bs : Bits) (s : State) (h : s.mem.wf s.cfg = true) (hl : bs.length ≤ s.cfg.rmax) :
    (storeResult bs s).mem.wf s.cfg = true := by
  rw [memory_wf_iff] at h ⊢
  exact ⟨h.1, h.2.1, cellsWf_splice _ _ _ _ h.2.2.1 (.inr (by omega)), h.2.2.2⟩

theorem memory_wf_storeFrame (bs : Bits) (s : State) (h : s.mem.wf s.cfg = true) (hl : bs.length ≤ s.cfg.wmax) :
    (storeFrame bs s).mem.wf s.cfg = true := by
  rw [memory_wf_iff] at h ⊢
  exact ⟨h.1, h.2.1, h.2.2.1, cellsWf_splice _ _ _ _ h.2.2.2.1 (.inr (by omega)), h.2.2.2.2⟩

theorem memory_wf_storeRecord (r : Nat) (rec : TraceRec) (s : State) (h : s.mem.wf s.cfg = true) (hr : r < s.cfg.tmax) :
    (storeRecord r rec s).mem.wf s.cfg = true := by
  rw [memory_wf_iff] at h ⊢
  exact ⟨h.1, h.2.1, h.2.2.1, h.2.2.2.1, cellsWf_splice _ _ _ _ h.2.2.2.2 (.inr (by simp; omega))⟩

end Sys2Proof.Machine
end

