-- ==== Sys2Proof/Laws/Division.lean ====
section
/-! SUPPORT. The lengths and the effects of a window step, a sweep and a remainder. -/

namespace Sys2Proof.Machine

@[simp] theorem zeros_length (k : Nat) : (zeros k).length = k := by simp [zeros]

theorem substr_length (s : Bits) (start len : Nat) (h : start + len ≤ s.length) : (substr s start len).length = len := by
  simp [substr]; omega

@[simp] theorem xorBits_length (a b : Bits) : (xorBits a b).length = min a.length b.length := by simp [xorBits]

theorem windowStep_after_length (w g : Bits) (i : Nat) (h : i + g.length ≤ w.length) :
    (windowStep w g i).2.after.length = g.length := by
  have := substr_length w i g.length h
  simp only [windowStep]
  split <;> simp [this]

/-- A window step keeps the buffer's length (40_divider.md R100). -/
theorem windowStep_length (w g : Bits) (i : Nat) (h : i + g.length ≤ w.length) :
    (windowStep w g i).1.length = w.length := by
  have h1 := windowStep_after_length w g i h
  have h2 : (windowStep w g i).1 = w.take i ++ (windowStep w g i).2.after ++ w.drop (i + g.length) := rfl
  rw [h2, List.length_append, List.length_append, h1, List.length_take, List.length_drop]
  omega

/-- A position outside the window is as it was (40_divider.md R100). -/
theorem windowStep_outside (w g : Bits) (i j : Nat) (h : i + g.length ≤ w.length) (hj : j < i ∨ i + g.length ≤ j) :
    (windowStep w g i).1[j]? = w[j]? := by
  have h1 := windowStep_after_length w g i h
  have h2 : (windowStep w g i).1 = w.take i ++ (windowStep w g i).2.after ++ w.drop (i + g.length) := rfl
  have h3 : (w.take i).length = i := by simp; omega
  rw [h2]
  rcases hj with hj | hj
  · rw [List.append_assoc, List.getElem?_append_left (by omega), List.getElem?_take, if_pos hj]
  · rw [List.getElem?_append_right (by simp [h1, h3]; omega), List.getElem?_drop]
    congr 1
    simp [h1, h3]; omega

/-- A window step clears the window's leading bit, because the generator's is 1 (40_divider.md R100). -/
theorem windowStep_clears_leading (w g : Bits) (i : Nat) (h : i + g.length ≤ w.length) (hg : g.head? = some true) :
    (windowStep w g i).1[i]? = some false := by
  have h1 := windowStep_after_length w g i h
  have h2 : (windowStep w g i).1 = w.take i ++ (windowStep w g i).2.after ++ w.drop (i + g.length) := rfl
  have h3 : (w.take i).length = i := by simp; omega
  obtain ⟨g', rfl⟩ : ∃ g', g = true :: g' := by
    cases g with
    | nil => simp at hg
    | cons a g' => simp at hg; exact ⟨g', by rw [hg]⟩
  have hlen := substr_length w i (true :: g').length h
  rw [h2, List.append_assoc, List.getElem?_append_right (by omega), List.getElem?_append_left (by simp [h1, h3])]
  simp only [h3, Nat.sub_self, windowStep]
  cases hb : substr w i (true :: g').length with
  | nil => rw [hb] at hlen; simp at hlen
  | cons b bs => cases b <;> simp [xorBits]

theorem sweepSteps_length (d g : Bits) (m : Nat) (h : m ≤ windowCount d.length g.length) :
    (sweepSteps d g m).1.length = d.length ∧ (sweepSteps d g m).2.length = m := by
  induction m with
  | zero => simp [sweepSteps]
  | succ m ih =>
    obtain ⟨h1, h2⟩ := ih (by omega)
    have hm : m + g.length ≤ (sweepSteps d g m).1.length := by rw [h1]; unfold windowCount at h; omega
    exact ⟨by simp only [sweepSteps]; rw [windowStep_length _ _ _ hm, h1], by simp [sweepSteps, h2]⟩

/-- The records a longer sweep keeps are those of the shorter one. -/
theorem sweepSteps_records_succ (d g : Bits) (m : Nat) :
    (sweepSteps d g (m + 1)).2 = (sweepSteps d g m).2 ++ [(windowStep (sweepSteps d g m).1 g m).2] := rfl

theorem sweepSteps_buffer_succ (d g : Bits) (m : Nat) :
    (sweepSteps d g (m + 1)).1 = (windowStep (sweepSteps d g m).1 g m).1 := rfl

/-- A remainder has RL(n) bits, whatever the buffer (40_divider.md R106). -/
theorem remainder_length (w : Bits) (n : Nat) (hn : 1 ≤ n) : (remainder w w.length n).length = remainderLength n := by
  unfold remainder remainderLength
  split
  · next h => subst h; simp
  · split
    · rw [substr_length _ _ _ (by omega)]; omega
    · simp; omega

theorem checksum_length (rem : Bits) (n : Nat) (hn : 1 ≤ n) (h : rem.length = remainderLength n) :
    (checksum rem (n - 1)).length = n - 1 := by
  unfold checksum remainderLength at *
  split
  · next h0 => simp [h0]
  · rw [h]; omega

theorem workingBuffer_length (op : Op) (d : Bits) (k : Nat) :
    (workingBuffer op d k).length = d.length + (if op = .encode then k else 0) := by
  cases op <;> simp [workingBuffer]

end Sys2Proof.Machine
end

