-- ==== Sys2Proof/Laws/Launch.lean ====
section
/-! SUPPORT. What a launch does, said once: dropped in SWEEP, an error completion, or accepted. -/

namespace Sys2Proof.Machine

@[simp] theorem dividendBits_length (s : State) : (dividendBits s).length = s.regs.dlen.toNat := by simp [dividendBits]

@[simp] theorem generatorBits_length (s : State) : (generatorBits s).length = s.regs.glen.toNat := by simp [generatorBits]

/-- The checks of 60_exceptions.md R166 all pass exactly for legal operands. -/
theorem operandCheck_none_iff (op : Op) (s : State) : operandCheck op s = none ↔ LegalOperands op s := by
  unfold operandCheck LegalOperands
  constructor
  · intro h
    simp only at h
    repeat' split at h
    all_goals try contradiction
    next h1 h2 h3 h4 h5 h6 =>
      refine ⟨by omega, by omega, by omega, by omega, fun he => ?_, by simpa using h6⟩
      have : ¬ s.cfg.lmax < s.regs.dlen.toNat + s.regs.glen.toNat - 1 := fun hc => h5 ⟨he, hc⟩
      omega
  · rintro ⟨h1, h2, h3, h4, h5, h6⟩
    have e : ¬ (op = .encode ∧ s.cfg.lmax < s.regs.dlen.toNat + s.regs.glen.toNat - 1) := by
      rintro ⟨he, hc⟩; have := h5 he; omega
    simp only [e, if_false, h6]
    simp (disch := omega) [if_neg]

/-- Every error a launch reports has a code. -/
theorem operandCheck_code (op : Op) (s : State) (e : LaunchError) (h : operandCheck op s = some e) : e.1 ≠ .none := by
  unfold operandCheck at h
  simp only at h
  repeat' split at h
  all_goals first | contradiction | (injection h with h; subst h; simp)

@[simp] theorem operandCheck_noteLaunch (low : BitVec 3) (op : Op) (s : State) :
    operandCheck op (noteLaunch low s) = operandCheck op s := rfl

@[simp] theorem acceptedEngine_noteLaunch (low : BitVec 3) (op : Op) (tr : Bool) (s : State) :
    acceptedEngine op tr (noteLaunch low s) = acceptedEngine op tr s := rfl

theorem launch_sweep (low : BitVec 3) (cmd : Option (Op × Bool)) (s : State) (h : s.eng.phase = .sweep) :
    launch low cmd s = .next (dropLaunch s) := by
  simp [launch, h]

theorem launch_illegal (low : BitVec 3) (s : State) (h : s.eng.phase = .idle) :
    launch low none s = .next (errorCompletion (.illegalCommand, false) (noteLaunch low s)) := by
  simp [launch, h, launchCheck]

theorem launch_error (low : BitVec 3) (op : Op) (tr : Bool) (s : State) (e : LaunchError) (h : s.eng.phase = .idle)
    (he : operandCheck op s = some e) :
    launch low (some (op, tr)) s = .next (errorCompletion e (noteLaunch low s)) := by
  simp [launch, h, launchCheck, he]

theorem launch_accepted (low : BitVec 3) (op : Op) (tr : Bool) (s : State) (h : s.eng.phase = .idle)
    (hl : LegalOperands op s) :
    launch low (some (op, tr)) s = .next (accept op tr (noteLaunch low s)) := by
  simp [launch, h, launchCheck, (operandCheck_none_iff op s).2 hl]

/-- Everything a launch can do. -/
theorem launch_cases (low : BitVec 3) (cmd : Option (Op × Bool)) (s : State) :
    (s.eng.phase = .sweep ∧ launch low cmd s = .next (dropLaunch s)) ∨
    (s.eng.phase = .idle ∧ ∃ e : LaunchError, e.1 ≠ .none ∧ launch low cmd s = .next (errorCompletion e (noteLaunch low s))) ∨
    (s.eng.phase = .idle ∧ ∃ op tr, cmd = some (op, tr) ∧ LegalOperands op s ∧
      launch low cmd s = .next (accept op tr (noteLaunch low s))) := by
  cases hp : s.eng.phase with
  | sweep => exact .inl ⟨rfl, launch_sweep low cmd s hp⟩
  | idle =>
    cases cmd with
    | none => exact .inr (.inl ⟨rfl, _, by simp, launch_illegal low s hp⟩)
    | some c =>
      obtain ⟨op, tr⟩ := c
      cases he : operandCheck op s with
      | some e => exact .inr (.inl ⟨rfl, e, operandCheck_code op s e he, launch_error low op tr s e hp he⟩)
      | none =>
        have hl := (operandCheck_none_iff op s).1 he
        exact .inr (.inr ⟨rfl, op, tr, rfl, hl, launch_accepted low op tr s hp hl⟩)

/-- Every command word either does nothing or launches with `v[2:0]` as LASTCMD and, if it is accepted, the latched
command of those bits. -/
theorem exec_cases (i : Instr) (s : State) :
    exec i s = .next s ∨
    ∃ low cmd, exec i s = launch low cmd s ∧ ∀ op tr, cmd = some (op, tr) → low = commandLow op tr := by
  cases i with
  | nop x => exact .inl rfl
  | divide => exact .inr ⟨0b000, some (.divide, false), rfl, fun op tr h => by cases h; rfl⟩
  | divideT => exact .inr ⟨0b100, some (.divide, true), rfl, fun op tr h => by cases h; rfl⟩
  | encode => exact .inr ⟨0b001, some (.encode, false), rfl, fun op tr h => by cases h; rfl⟩
  | encodeT => exact .inr ⟨0b101, some (.encode, true), rfl, fun op tr h => by cases h; rfl⟩
  | verify => exact .inr ⟨0b010, some (.verify, false), rfl, fun op tr h => by cases h; rfl⟩
  | verifyT => exact .inr ⟨0b110, some (.verify, true), rfl, fun op tr h => by cases h; rfl⟩
  | illegal r t op => exact .inr ⟨t ++ op, none, rfl, fun op tr h => by cases h⟩

end Sys2Proof.Machine
end

