-- ==== Sys2Proof/Laws/Bus.lean ====
section
/-! SUPPORT. The register window: names and offsets agree, what a read can be, and what a write can be. -/

namespace Sys2Proof.Machine

theorem admittedAccess_iff (width off : Nat) :
    admittedAccess width off = true ↔ width = 4 ∧ off % 4 = 0 ∧ off < 0x4000 := by
  simp [admittedAccess, and_assoc]

/-! The map of 20_memory.md R60, one lemma per buffer: the byte at distance `k` from a buffer's first word lies in word
`k / 4`. -/

theorem regAt_gbuf (k : Nat) (h : k < 0x80) : regAt (0x0100 + k) = .gbuf (k / 4) := by
  simp (disch := omega) only [regAt, if_pos, if_neg, Nat.add_sub_cancel_left]

theorem regAt_rbuf (k : Nat) (h : k < 0x80) : regAt (0x0180 + k) = .rbuf (k / 4) := by
  simp (disch := omega) only [regAt, if_pos, if_neg, Nat.add_sub_cancel_left]

theorem regAt_trecBefore (k : Nat) (h : k < 0x80) : regAt (0x0200 + k) = .trecBefore (k / 4) := by
  simp (disch := omega) only [regAt, if_pos, if_neg, Nat.add_sub_cancel_left]

theorem regAt_trecAfter (k : Nat) (h : k < 0x80) : regAt (0x0280 + k) = .trecAfter (k / 4) := by
  simp (disch := omega) only [regAt, if_pos, if_neg, Nat.add_sub_cancel_left]

theorem regAt_dbuf (k : Nat) (h : k < 0x1000) : regAt (0x1000 + k) = .dbuf (k / 4) := by
  simp (disch := omega) only [regAt, if_pos, if_neg, Nat.add_sub_cancel_left]

theorem regAt_xbuf (k : Nat) (h : k < 0x1000) : regAt (0x2000 + k) = .xbuf (k / 4) := by
  simp (disch := omega) only [regAt, if_pos, if_neg, Nat.add_sub_cancel_left]

/-- The map gives every named register back at its own offset. -/
theorem regAt_regOffset (r : Reg) (h : r.wellFormed = true) : regAt (regOffset r) = r := by
  have bound : ∀ n w : Nat, decide (w < n) = true → 4 * w < 4 * n := fun n w hw => by have := of_decide_eq_true hw; omega
  have word : ∀ w : Nat, 4 * w / 4 = w := fun w => by omega
  cases r with
  | gbuf w => exact (regAt_gbuf _ (bound 32 w h)).trans (by rw [word])
  | rbuf w => exact (regAt_rbuf _ (bound 32 w h)).trans (by rw [word])
  | trecBefore w => exact (regAt_trecBefore _ (bound 32 w h)).trans (by rw [word])
  | trecAfter w => exact (regAt_trecAfter _ (bound 32 w h)).trans (by rw [word])
  | dbuf w => exact (regAt_dbuf _ (bound 1024 w h)).trans (by rw [word])
  | xbuf w => exact (regAt_xbuf _ (bound 1024 w h)).trans (by rw [word])
  | _ => rfl

theorem regOffset_admitted (r : Reg) (h : r.wellFormed = true) : admittedAccess 4 (regOffset r) = true := by
  rw [admittedAccess_iff]
  refine ⟨rfl, ?_⟩
  cases r
  case gbuf w | rbuf w | trecBefore w | trecAfter w | dbuf w | xbuf w =>
    have hw : w < _ := of_decide_eq_true h
    simp only [regOffset]
    omega
  all_goals simp [regOffset]

/-- Everything a read can do: give a value and leave the state, or draw. -/
theorem readReg_cases (r : Reg) (s : State) :
    (readReg r s = (regValue s r, s) ∧ (s.regs.status.busy && drawnWhileBusy r) = false) ∨
    (readReg r s = (Config.busyDraw s.draws, { s with draws := s.draws + 1 }) ∧
      s.regs.status.busy = true ∧ drawnWhileBusy r = true) := by
  by_cases h : (s.regs.status.busy && drawnWhileBusy r) = true
  · exact .inr ⟨by rw [readReg, if_pos h], by simpa using h⟩
  · exact .inl ⟨by rw [readReg, if_neg h], by simpa using h⟩

theorem readReg_defined (r : Reg) (s : State) (h : s.regs.status.busy = false ∨ drawnWhileBusy r = false) :
    readReg r s = (regValue s r, s) := by
  rcases readReg_cases r s with ⟨h1, -⟩ | ⟨-, h2, h3⟩
  · exact h1
  · rcases h with h | h <;> simp_all

/-- A read changes at most the model's draw counter. -/
theorem readReg_state (r : Reg) (s : State) : ∃ d, (readReg r s).2 = { s with draws := d } := by
  rcases readReg_cases r s with ⟨h, -⟩ | ⟨h, -⟩ <;> rw [h]
  · exact ⟨s.draws, rfl⟩
  · exact ⟨_, rfl⟩

theorem memRead_admitted (width off : Nat) (s : State) (h : admittedAccess width off = true) :
    memRead width off s = .next (readReg (regAt off) s) := by simp [memRead, h]

theorem memRead_refused (width off : Nat) (s : State) (h : admittedAccess width off = false) :
    memRead width off s = .refused (.badAccess width off) := by simp [memRead, h]

theorem memWrite_admitted (width off : Nat) (v : Word) (s : State) (h : admittedAccess width off = true) :
    memWrite width off v s = writeReg (regAt off) v s := by simp [memWrite, h]

theorem memWrite_refused (width off : Nat) (v : Word) (s : State) (h : admittedAccess width off = false) :
    memWrite width off v s = .refused (.badAccess width off) := by simp [memWrite, h]

/-- Every command word has a next state. -/
theorem exec_next (i : Instr) (s : State) : ∃ t, exec i s = .next t := by
  rcases exec_cases i s with h | ⟨low, cmd, h, -⟩
  · exact ⟨_, h⟩
  · rw [h]
    rcases launch_cases low cmd s with ⟨-, h⟩ | ⟨-, e, -, h⟩ | ⟨-, op, tr, -, -, h⟩ <;> exact ⟨_, h⟩

/-- Everything a register write can do (20_memory.md R65). -/
theorem writeReg_cases (r : Reg) (v : Word) (s : State) :
    (r = .ctrl ∧ writeReg r v s = exec (decodeWord v) s) ∨
    (∃ regs, writeReg r v s = .next { s with regs := regs } ∧
      (regs = s.regs ∨ regs = { s.regs with irqEn := v.getLsbD 0 } ∨ regs = { s.regs with dlen := v } ∨
        regs = { s.regs with glen := v } ∨ regs = { s.regs with tidx := v })) ∨
    (∃ w, r = .gbuf w ∧ writeReg r v s = .next (writeGbufWord w v s)) ∨
    (∃ w, r = .dbuf w ∧ writeReg r v s = .next (writeDbufWord w v s)) := by
  cases r
  case ctrl => exact .inl ⟨rfl, rfl⟩
  case irqen => exact .inr (.inl ⟨_, rfl, .inr (.inl rfl)⟩)
  case dlen => exact .inr (.inl ⟨_, rfl, .inr (.inr (.inl rfl))⟩)
  case glen => exact .inr (.inl ⟨_, rfl, .inr (.inr (.inr (.inl rfl)))⟩)
  case tidx => exact .inr (.inl ⟨_, rfl, .inr (.inr (.inr (.inr rfl)))⟩)
  case gbuf w => exact .inr (.inr (.inl ⟨w, rfl, rfl⟩))
  case dbuf w => exact .inr (.inr (.inr ⟨w, rfl, rfl⟩))
  all_goals exact .inr (.inl ⟨s.regs, rfl, .inl rfl⟩)

theorem writeReg_next (r : Reg) (v : Word) (s : State) : ∃ t, writeReg r v s = .next t := by
  rcases writeReg_cases r v s with ⟨-, h⟩ | ⟨_, h, -⟩ | ⟨_, -, h⟩ | ⟨_, -, h⟩ <;> rw [h]
  · exact exec_next _ _
  all_goals exact ⟨_, rfl⟩

/-! ## Bits of the views -/

/-- A command word never touches the host agent. -/
theorem exec_host (i : Instr) (s t : State) (h : exec i s = .next t) : t.host = s.host := by
  rcases exec_cases i s with e | ⟨low, cmd, e, -⟩
  · rw [e] at h; cases h; rfl
  · rcases launch_cases low cmd s with ⟨_, l⟩ | ⟨_, _, _, l⟩ | ⟨_, _, _, _, _, l⟩ <;> (rw [e, l] at h; cases h; rfl)

theorem writeReg_host (r : Reg) (v : Word) (s t : State) (h : writeReg r v s = .next t) : t.host = s.host := by
  cases r with
  | ctrl => exact exec_host _ _ _ h
  | _ => cases h; rfl

theorem regValue_dbuf_bit (s : State) (w b : Nat) (h : b < 32) :
    (regValue s (.dbuf w)).getLsbD b = dbufBit s (32 * w + (31 - b)) := packWord_getLsbD (dbufBit s) w b h

theorem regValue_gbuf_bit (s : State) (w b : Nat) (h : b < 32) :
    (regValue s (.gbuf w)).getLsbD b = gbufBit s (32 * w + (31 - b)) := packWord_getLsbD (gbufBit s) w b h

theorem regValue_rbuf_bit (s : State) (w b : Nat) (h : b < 32) :
    (regValue s (.rbuf w)).getLsbD b =
      (decide (32 * w + (31 - b) < s.regs.rlen.toNat) && rbufBit s (32 * w + (31 - b))) :=
  packWord_getLsbD (fun j => decide (j < s.regs.rlen.toNat) && rbufBit s j) w b h

theorem regValue_xbuf_bit (s : State) (w b : Nat) (h : b < 32) :
    (regValue s (.xbuf w)).getLsbD b =
      (decide (32 * w + (31 - b) < s.regs.xlen.toNat) && xbufBit s (32 * w + (31 - b))) :=
  packWord_getLsbD (fun j => decide (j < s.regs.xlen.toNat) && xbufBit s j) w b h

theorem windowView_bit (s : State) (content : TraceRec → Bits) (w b : Nat) (h : b < 32) (rec : TraceRec)
    (hr : shownRecord s = some rec) :
    (windowView s content w).getLsbD b =
      (decide (32 * w + (31 - b) < rec.width) && decide (32 * w + (31 - b) < s.cfg.nmax) &&
        (content rec).getD (32 * w + (31 - b)) false) := by
  simp only [windowView, hr]
  exact packWord_getLsbD (fun j => decide (j < rec.width) && decide (j < s.cfg.nmax) && (content rec).getD j false) w b h

theorem shownRecord_none (s : State) (h : s.regs.tcount.toNat ≤ s.regs.tidx.toNat) : shownRecord s = none := by
  simp [shownRecord]; omega

theorem shownRecord_some (s : State) (h : s.regs.tidx.toNat < s.regs.tcount.toNat) :
    shownRecord s = some (traceRecord s s.regs.tidx.toNat) := by
  simp [shownRecord, h]

end Sys2Proof.Machine
end

