-- ==== Sys2Proof/Laws/Encoding.lean ====
section
/-! SUPPORT. The fields of a command word are the fields it was built from. -/

namespace Sys2Proof

/-- Each bit of a command word, by the field it lies in (30_encoding.md R80). -/
theorem commandWord_getLsbD (a : BitVec 1) (r : BitVec 28) (t : BitVec 1) (o : BitVec 2) (i : Nat) :
    (commandWord a r t o).getLsbD i =
      if i < 2 then o.getLsbD i else if i - 2 < 1 then t.getLsbD (i - 2)
      else if i - 2 - 1 < 28 then r.getLsbD (i - 2 - 1) else a.getLsbD (i - 2 - 1 - 28) := by
  have h : (commandWord a r t o).getLsbD i = BitVec.getLsbD (w := 1 + 28 + 1 + 2) (a ++ r ++ t ++ o) i := rfl
  rw [h, BitVec.getLsbD_append, BitVec.getLsbD_append, BitVec.getLsbD_append]

@[simp] theorem fieldStart_commandWord (a : BitVec 1) (r : BitVec 28) (t : BitVec 1) (o : BitVec 2) :
    fieldStart (commandWord a r t o) = a.getLsbD 0 := by
  rw [fieldStart, commandWord_getLsbD]; rfl

@[simp] theorem fieldRsvd_commandWord (a : BitVec 1) (r : BitVec 28) (t : BitVec 1) (o : BitVec 2) :
    fieldRsvd (commandWord a r t o) = r := by
  apply BitVec.eq_of_getLsbD_eq
  intro i hi
  rw [fieldRsvd, BitVec.getLsbD_extractLsb', commandWord_getLsbD, if_neg (by omega), if_neg (by omega), if_pos (by omega)]
  have h : 3 + i - 2 - 1 = i := by omega
  simp [h, hi]

@[simp] theorem fieldT_commandWord (a : BitVec 1) (r : BitVec 28) (t : BitVec 1) (o : BitVec 2) :
    fieldT (commandWord a r t o) = t := by
  apply BitVec.eq_of_getLsbD_eq
  intro i hi
  have h : i = 0 := by omega
  subst h
  rw [fieldT, BitVec.getLsbD_extractLsb', commandWord_getLsbD]; simp

@[simp] theorem fieldOp_commandWord (a : BitVec 1) (r : BitVec 28) (t : BitVec 1) (o : BitVec 2) :
    fieldOp (commandWord a r t o) = o := by
  apply BitVec.eq_of_getLsbD_eq
  intro i hi
  rw [fieldOp, BitVec.getLsbD_extractLsb', commandWord_getLsbD, if_pos (by omega)]
  simp [hi]

/-- A word is its four fields (30_encoding.md R80). -/
theorem commandWord_fields (v : Word) :
    commandWord (BitVec.ofBool (fieldStart v)) (fieldRsvd v) (fieldT v) (fieldOp v) = v := by
  apply BitVec.eq_of_getLsbD_eq
  intro i hi
  simp only [commandWord_getLsbD, fieldStart, fieldRsvd, fieldT, fieldOp, BitVec.getLsbD_extractLsb']
  by_cases h1 : i < 2
  · simp [h1]
  · by_cases h2 : i - 2 < 1
    · have : i = 2 := by omega
      subst this; simp
    · by_cases h3 : i - 2 - 1 < 28
      · have : 3 + (i - 2 - 1) = i := by omega
        simp [h1, h2, h3, this]
      · have : i = 31 := by omega
        subst this; simp

end Sys2Proof
end

