-- ==== Sys2Proof/Laws/Engine.lean ====
section
/-! SUPPORT. What an engine step does, said once, and what it leaves alone. -/

namespace Sys2Proof.Machine

/-! ## The commits -/

theorem commit_divide (rem : Bits) (s : State) (h : s.eng.opL = .divide) : commit rem s = commitDivide rem s := by
  simp [commit, h]

theorem commit_encode (rem : Bits) (s : State) (h : s.eng.opL = .encode) : commit rem s = commitEncode rem s := by
  simp [commit, h]

theorem commit_verify (rem : Bits) (s : State) (h : s.eng.opL = .verify) : commit rem s = commitVerify rem s := by
  simp [commit, h]

/-- What a commit leaves alone, whatever the command. -/
theorem commit_frame (rem : Bits) (s : State) :
    (commit rem s).cfg = s.cfg ∧ (commit rem s).eng = s.eng ∧ (commit rem s).host = s.host ∧
    (commit rem s).turns = s.turns ∧ (commit rem s).draws = s.draws ∧ (commit rem s).epoch = s.epoch ∧
    (commit rem s).mem.dbuf = s.mem.dbuf ∧ (commit rem s).mem.gbuf = s.mem.gbuf ∧ (commit rem s).mem.trace = s.mem.trace := by
  cases h : s.eng.opL <;> simp [commit, h, commitDivide, commitEncode, commitVerify]

/-! ## The steps -/

theorem engineStep_idle (s : State) (h : s.eng.phase = .idle) : engineStep s = s := by simp [engineStep, h]

theorem engineStep_window (s : State) (h : s.eng.phase = .sweep) (hw : s.eng.i + s.eng.nL ≤ s.eng.lw) :
    engineStep s = engineWindowStep s := by simp [engineStep, h, hw]

theorem engineStep_finish (s : State) (h : s.eng.phase = .sweep) (hw : s.eng.lw < s.eng.i + s.eng.nL) :
    engineStep s = engineFinishStep s := by simp [engineStep, h]; omega

/-- Everything an engine step can be. -/
theorem engineStep_cases (s : State) :
    (s.eng.phase = .idle ∧ engineStep s = s) ∨
    (s.eng.phase = .sweep ∧ s.eng.i + s.eng.nL ≤ s.eng.lw ∧ engineStep s = engineWindowStep s) ∨
    (s.eng.phase = .sweep ∧ s.eng.lw < s.eng.i + s.eng.nL ∧ engineStep s = engineFinishStep s) := by
  cases h : s.eng.phase with
  | idle => exact .inl ⟨rfl, engineStep_idle s h⟩
  | sweep =>
    by_cases hw : s.eng.i + s.eng.nL ≤ s.eng.lw
    · exact .inr (.inl ⟨rfl, hw, engineStep_window s h hw⟩)
    · exact .inr (.inr ⟨rfl, by omega, engineStep_finish s h (by omega)⟩)

@[simp] theorem engineWindowStep_cfg (s : State) : (engineWindowStep s).cfg = s.cfg := by
  unfold engineWindowStep; dsimp only; split <;> rfl
@[simp] theorem engineWindowStep_regs (s : State) : (engineWindowStep s).regs = s.regs := by
  unfold engineWindowStep; dsimp only; split <;> rfl
@[simp] theorem engineWindowStep_host (s : State) : (engineWindowStep s).host = s.host := by
  unfold engineWindowStep; dsimp only; split <;> rfl
@[simp] theorem engineWindowStep_turns (s : State) : (engineWindowStep s).turns = s.turns := by
  unfold engineWindowStep; dsimp only; split <;> rfl
@[simp] theorem engineWindowStep_draws (s : State) : (engineWindowStep s).draws = s.draws := by
  unfold engineWindowStep; dsimp only; split <;> rfl
@[simp] theorem engineWindowStep_epoch (s : State) : (engineWindowStep s).epoch = s.epoch := by
  unfold engineWindowStep; dsimp only; split <;> rfl
theorem engineWindowStep_eng (s : State) : (engineWindowStep s).eng =
    { s.eng with
      wbuf := (windowStep s.eng.wbuf s.eng.gL s.eng.i).1
      i := s.eng.i + 1
      tc := if s.eng.trL then s.eng.tc + 1 else s.eng.tc } := rfl
theorem engineWindowStep_mem (s : State) : (engineWindowStep s).mem =
    if s.eng.trL then { s.mem with trace := splice s.eng.tc [(windowStep s.eng.wbuf s.eng.gL s.eng.i).2] s.mem.trace }
    else s.mem := by
  unfold engineWindowStep; dsimp only; split <;> rfl

@[simp] theorem engineFinishStep_cfg (s : State) : (engineFinishStep s).cfg = s.cfg := (commit_frame _ s).1
@[simp] theorem engineFinishStep_host (s : State) : (engineFinishStep s).host = s.host := (commit_frame _ s).2.2.1
@[simp] theorem engineFinishStep_turns (s : State) : (engineFinishStep s).turns = s.turns := (commit_frame _ s).2.2.2.1
@[simp] theorem engineFinishStep_draws (s : State) : (engineFinishStep s).draws = s.draws := (commit_frame _ s).2.2.2.2.1
@[simp] theorem engineFinishStep_epoch (s : State) : (engineFinishStep s).epoch = s.epoch := (commit_frame _ s).2.2.2.2.2.1
theorem engineFinishStep_eng (s : State) : (engineFinishStep s).eng = { s.eng with phase := .idle } := by
  unfold engineFinishStep; dsimp only; rw [(commit_frame _ s).2.1]
theorem engineFinishStep_mem (s : State) :
    (engineFinishStep s).mem = (commit (remainder s.eng.wbuf s.eng.lw s.eng.nL) s).mem := rfl
theorem engineFinishStep_regs (s : State) : (engineFinishStep s).regs =
    { (commit (remainder s.eng.wbuf s.eng.lw s.eng.nL) s).regs with
      tcount := if s.eng.trL then BitVec.ofNat 32 s.eng.tc else 0
      status := finishFlags s.eng.trL (commit (remainder s.eng.wbuf s.eng.lw s.eng.nL) s).regs.status } := rfl

/-- What every engine step leaves alone (40_divider.md R116). -/
theorem engineStep_frame (s : State) :
    (engineStep s).cfg = s.cfg ∧ (engineStep s).host = s.host ∧ (engineStep s).turns = s.turns ∧
    (engineStep s).draws = s.draws ∧ (engineStep s).epoch = s.epoch ∧
    (engineStep s).mem.dbuf = s.mem.dbuf ∧ (engineStep s).mem.gbuf = s.mem.gbuf := by
  rcases engineStep_cases s with ⟨-, h⟩ | ⟨-, -, h⟩ | ⟨-, -, h⟩ <;> rw [h]
  · simp
  · refine ⟨by simp, by simp, by simp, by simp, by simp, ?_, ?_⟩ <;> rw [engineWindowStep_mem] <;> split <;> rfl
  · refine ⟨by simp, by simp, by simp, by simp, by simp, ?_, ?_⟩ <;> rw [engineFinishStep_mem]
    · exact (commit_frame _ s).2.2.2.2.2.2.1
    · exact (commit_frame _ s).2.2.2.2.2.2.2.1

end Sys2Proof.Machine
end

