-- ==== Sys2Proof/Laws/Flags.lean ====
section
/-! SUPPORT. The bits of the STATUS word (10_state.md R26) and the clean verdict. -/

namespace Sys2Proof.Machine

/-- Each bit of the STATUS word, by the field it lies in. -/
theorem statusWord_getLsbD (st : Status) (i : Nat) :
    (statusWord st).getLsbD i =
      if i = 0 then st.busy else if i = 1 then st.done else if i = 2 then st.err else if i = 3 then st.clean
      else if i < 8 then (errCodeBits st.errCode).getLsbD (i - 4)
      else if i = 8 then st.errArg else if i = 9 then st.dropped else if i = 10 then st.traced else false := by
  have h : (statusWord st).getLsbD i = BitVec.getLsbD (w := 21 + 1 + 1 + 1 + 4 + 1 + 1 + 1 + 1)
      (0#21 ++ BitVec.ofBool st.traced ++ BitVec.ofBool st.dropped ++ BitVec.ofBool st.errArg ++ errCodeBits st.errCode
        ++ BitVec.ofBool st.clean ++ BitVec.ofBool st.err ++ BitVec.ofBool st.done ++ BitVec.ofBool st.busy) i := rfl
  rw [h]
  simp only [BitVec.getLsbD_append, BitVec.getLsbD_zero]
  by_cases hi : i < 12
  · interval_cases i <;> simp
  · simp (disch := omega) only [if_neg]

theorem cleanVerdict_iff (rem : Bits) : cleanVerdict rem = true ↔ ∀ b ∈ rem, b = false := by
  simp [cleanVerdict]

theorem cleanVerdict_iff_zeros (rem : Bits) : cleanVerdict rem = true ↔ rem = List.replicate rem.length false := by
  rw [cleanVerdict_iff, List.eq_replicate_iff]
  simp

end Sys2Proof.Machine
end

