-- ==== Sys2Proof/Laws/Step.lean ====
section
/-! SUPPORT. What a step can do, said once: an engine step, a reset, or one access of the host. -/

namespace Sys2Proof.Machine

theorem onNext_next {α β : Type} (o : Result α) (f : α → Result β) (t : β) (h : onNext o f = .next t) :
    ∃ a, o = .next a ∧ f a = .next t := by
  cases o with
  | next a => exact ⟨a, rfl, h⟩
  | fault r => cases r
  | refused r => simp [onNext] at h

theorem memRead_next (width off : Nat) (s : State) (p : Word × State) (h : memRead width off s = .next p) :
    admittedAccess width off = true ∧ p = readReg (regAt off) s := by
  unfold memRead at h
  split at h
  · next ha => exact ⟨ha, by injection h with h; exact h.symm⟩
  · simp at h

theorem memWrite_next (width off : Nat) (v : Word) (s t : State) (h : memWrite width off v s = .next t) :
    admittedAccess width off = true ∧ writeReg (regAt off) v s = .next t := by
  unfold memWrite at h
  split at h
  · next ha => exact ⟨ha, h⟩
  · simp at h

theorem memWrite_host (width off : Nat) (v : Word) (s t : State) (h : memWrite width off v s = .next t) :
    t.host = s.host :=
  writeReg_host _ _ _ _ (memWrite_next _ _ _ _ _ h).2

/-- What is left of a COPYXD makes only admitted accesses when the length it read fits the buffers. -/
theorem copyXdRest_wellFormed (xlen : Word) (h : xlen.toNat ≤ 32768) : ∀ op ∈ copyXdRest xlen, op.wellFormed = true := by
  intro op ho
  simp only [copyXdRest, List.mem_cons, List.mem_flatMap, List.mem_range, hostMov, List.not_mem_nil, or_false] at ho
  rcases ho with rfl | ⟨w, hw, rfl | rfl⟩
  · decide
  · exact regOffset_admitted (.xbuf w) (by simp [Reg.wellFormed]; unfold wordsFor at hw; omega)
  · exact regOffset_admitted (.dbuf w) (by simp [Reg.wellFormed]; unfold wordsFor at hw; omega)

/-- A statement that reads changes the draw counter and the host agent alone. -/
theorem read_then_next (width off : Nat) (f : Word × State → State) (s t : State)
    (hf : ∀ p, ∃ hst, f p = { p.2 with host := hst })
    (h : onNext (memRead width off s) (fun p => .next (f p)) = .next t) :
    ∃ d hst, t = { s with draws := d, host := hst } := by
  obtain ⟨p, hp, ht⟩ := onNext_next _ _ _ h
  obtain ⟨-, rfl⟩ := memRead_next _ _ _ _ hp
  obtain ⟨d, hd⟩ := readReg_state (regAt off) s
  obtain ⟨hst, hh⟩ := hf (readReg (regAt off) s)
  injection ht with ht
  exact ⟨d, hst, by rw [← ht, hh, hd]⟩

/-- Everything a host statement can do: one register write, or a read that touches only the host and the draw counter. -/
theorem execHostOp_cases (op : HostOp) (s t : State) (h : execHostOp op s = .next t) :
    (∃ off v, writeReg (regAt off) v s = .next t) ∨ ∃ d hst, t = { s with draws := d, host := hst } := by
  cases op with
  | wr off imm => exact .inl ⟨_, _, (memWrite_next _ _ _ _ _ h).2⟩
  | wrT off => exact .inl ⟨_, _, (memWrite_next _ _ _ _ _ h).2⟩
  | wrTXor off mask => exact .inl ⟨_, _, (memWrite_next _ _ _ _ _ h).2⟩
  | writeSized width off v => exact .inl ⟨_, _, (memWrite_next _ _ _ _ _ h).2⟩
  | rd off => exact .inr (read_then_next 4 off (fun p => setTemp p.1 p.2) s t (fun p => ⟨_, rfl⟩) h)
  | rdEq off imm => exact .inr (read_then_next 4 off (fun p => noteAssert (p.1 == imm) p.2) s t (fun p => ⟨_, rfl⟩) h)
  | poll off mask val =>
    refine .inr (read_then_next 4 off (fun p => if p.1 &&& mask = val then p.2 else pushOps [.poll off mask val] p.2) s t
      (fun p => ?_) h)
    by_cases hm : p.1 &&& mask = val
    · exact ⟨p.2.host, by simp [hm]⟩
    · exact ⟨_, by simp only [hm, if_false]; rfl⟩
  | copyXd =>
    exact .inr (read_then_next 4 (regOffset .xlen) (fun p => pushOps (copyXdRest p.1) (setTemp p.1 p.2)) s t
      (fun p => ⟨_, rfl⟩) h)
  | readSized width off => exact .inr (read_then_next width off (fun p => setTemp p.1 p.2) s t (fun p => ⟨_, rfl⟩) h)

theorem hostStep_cases (s t : State) (h : hostStep s = .next t) :
    (∃ hst off v, writeReg (regAt off) v { s with host := hst } = .next t) ∨
    ∃ d hst, t = { s with draws := d, host := hst } := by
  unfold hostStep at h
  split at h
  · injection h with h; subst h; exact .inr ⟨s.draws, s.host, rfl⟩
  · next op rest _ =>
    rcases execHostOp_cases op _ t h with ⟨off, v, hw⟩ | ⟨d, hst, ht⟩
    · exact .inl ⟨_, off, v, hw⟩
    · exact .inr ⟨d, hst, ht⟩

/-- Everything a step that goes on can be. -/
theorem step_cases (s t : State) (h : step s = .next t) :
    ∃ rest, t = engineStep { s with turns := rest } ∨ t = resetBlock { s with turns := rest } ∨
      (∃ hst off v, writeReg (regAt off) v { s with turns := rest, host := hst } = .next t) ∨
      ∃ d hst, t = { s with turns := rest, draws := d, host := hst } := by
  have key : ∀ (turn : Turn) (s0 : State), takeTurn turn s0 = .next t → t = engineStep s0 ∨ t = resetBlock s0 ∨
      (∃ hst off v, writeReg (regAt off) v { s0 with host := hst } = .next t) ∨
      ∃ d hst, t = { s0 with draws := d, host := hst } := by
    intro turn s0 ht
    cases turn with
    | host => exact .inr (.inr (hostStep_cases s0 t ht))
    | engine => injection ht with ht; exact .inl ht.symm
    | reset => injection ht with ht; exact .inr (.inl ht.symm)
  unfold step at h
  split at h
  · next hn =>
    refine ⟨s.turns, ?_⟩
    exact key _ s h
  · next turn rest hn => exact ⟨rest, key turn _ h⟩

/-- The first turn of the schedule is taken. -/
theorem step_turn (s : State) (turn : Turn) (rest : List Turn) (h : s.turns = turn :: rest) :
    step s = takeTurn turn { s with turns := rest } := by
  unfold step; rw [h]

theorem step_default (s : State) (h : s.turns = []) : step s = takeTurn (defaultTurn s) s := by
  unfold step; rw [h]

/-- The host's next statement is run. -/
theorem hostStep_cons (s : State) (op : HostOp) (rest : List HostOp) (h : s.host.prog = op :: rest) :
    hostStep s = execHostOp op { s with host := { s.host with prog := rest } } := by
  unfold hostStep; rw [h]

end Sys2Proof.Machine
end

