-- ==== Sys2Proof/Laws/Invariant.lean ====
section
/-! SUPPORT. Each operation of the engine, the launch and the window keeps the invariant of Safety.lean. -/

namespace Sys2Proof.Machine

/-- The invariant reads the parameters, the registers, the storage and the engine alone. -/
theorem inv_congr (s t : State) (hc : t.cfg = s.cfg) (hr : t.regs = s.regs) (hm : t.mem = s.mem) (he : t.eng = s.eng)
    (h : Inv s) : Inv t := by
  obtain ⟨c, r, m, e, h1, t1, d1, p1⟩ := s
  obtain ⟨c', r', m', e', h1', t1', d1', p1'⟩ := t
  simp only at hc hr hm he
  subst hc hr hm he
  obtain ⟨a, b, ⟨s1, s2, s3, s4, s5, s6⟩, ⟨q1, q2, q3, q4⟩, d⟩ := h
  exact ⟨a, b, ⟨s1, s2, s3, s4, s5, s6⟩, ⟨q1, q2, q3, q4⟩, fun hs => by
    obtain ⟨x1, x2, x3, x4, x5, x6, x7, x8, x9, x10, x11, x12, x13, x14, x15, x16⟩ := d hs
    exact ⟨x1, x2, x3, x4, x5, x6, x7, x8, x9, x10, x11, x12, x13, x14, x15, x16⟩⟩

/-- Registers the invariant does not read: the operand lengths, IRQEN, TIDX and DROPPED. -/
theorem inv_host_registers (s t : State) (hc : t.cfg = s.cfg) (hm : t.mem = s.mem) (he : t.eng = s.eng)
    (hl : t.regs.lastCmd = s.regs.lastCmd) (h1 : t.regs.rlen = s.regs.rlen) (h2 : t.regs.xlen = s.regs.xlen)
    (h3 : t.regs.tcount = s.regs.tcount)
    (hst : { t.regs.status with dropped := s.regs.status.dropped } = s.regs.status) (h : Inv s) : Inv t := by
  have e1 : t.regs.status.busy = s.regs.status.busy := by rw [← hst]
  have e2 : t.regs.status.done = s.regs.status.done := by rw [← hst]
  have e3 : t.regs.status.err = s.regs.status.err := by rw [← hst]
  have e4 : t.regs.status.clean = s.regs.status.clean := by rw [← hst]
  have e5 : t.regs.status.errCode = s.regs.status.errCode := by rw [← hst]
  have e6 : t.regs.status.errArg = s.regs.status.errArg := by rw [← hst]
  have e7 : t.regs.status.traced = s.regs.status.traced := by rw [← hst]
  obtain ⟨a, b, ⟨s1, s2, s3, s4, s5, s6⟩, ⟨q1, q2, q3, q4⟩, d⟩ := h
  refine ⟨by rw [hc]; exact a, by rw [hc, hm]; exact b, ⟨?_, ?_, ?_, ?_, ?_, ?_⟩, ⟨?_, ?_, ?_, ?_⟩, fun hs => ?_⟩
  · rw [e1, he]; exact s1
  · rw [e1, e2, e3, e4, e7]; exact s2
  · rw [e3, e2, e5, e4, e7, h1, h2, h3]; exact s3
  · rw [e3, e5, e6]; exact s4
  · rw [e4, e2, e3, hl]; exact s5
  · rw [e2, e7, h3]; exact s6
  · rw [h1, hc]; exact q1
  · rw [h2, hc]; exact q2
  · rw [h3, hc]; exact q3
  · rw [h3, hm, hc]; exact q4
  · rw [he] at hs
    obtain ⟨x1, x2, x3, x4, x5, x6, x7, x8, x9, x10, x11, x12, x13, x14, x15, x16⟩ := d hs
    constructor <;> (try rw [he]) <;> (try rw [hc]) <;> (try rw [hl]) <;> (try rw [hm]) <;> assumption

theorem inv_dropLaunch (s : State) (h : Inv s) : Inv (dropLaunch s) := by
  exact inv_host_registers s _ rfl rfl rfl rfl rfl rfl rfl rfl h

/-- A write of operand storage keeps the invariant: a running sweep reads its snapshot (10_state.md R49). -/
theorem inv_operand_storage (s t : State) (hc : t.cfg = s.cfg) (hr : t.regs = s.regs) (he : t.eng = s.eng)
    (hx : t.mem.trace = s.mem.trace) (hw : t.mem.wf t.cfg = true) (h : Inv s) : Inv t := by
  obtain ⟨a, b, ⟨s1, s2, s3, s4, s5, s6⟩, ⟨q1, q2, q3, q4⟩, d⟩ := h
  refine ⟨by rw [hc]; exact a, hw, ⟨?_, ?_, ?_, ?_, ?_, ?_⟩, ⟨?_, ?_, ?_, ?_⟩, fun hs => ?_⟩
  · rw [hr, he]; exact s1
  · rw [hr]; exact s2
  · rw [hr]; exact s3
  · rw [hr]; exact s4
  · rw [hr]; exact s5
  · rw [hr]; exact s6
  · rw [hr, hc]; exact q1
  · rw [hr, hc]; exact q2
  · rw [hr, hc]; exact q3
  · rw [hr, hx, hc]; exact q4
  · rw [he] at hs
    obtain ⟨x1, x2, x3, x4, x5, x6, x7, x8, x9, x10, x11, x12, x13, x14, x15, x16⟩ := d hs
    constructor <;> (try rw [he]) <;> (try rw [hc]) <;> (try rw [hr]) <;> (try rw [hx]) <;> assumption

theorem inv_writeDbufWord (w : Nat) (v : Word) (s : State) (h : Inv s) : Inv (writeDbufWord w v s) :=
  inv_operand_storage s _ rfl rfl rfl rfl (memory_wf_writeDbufWord w v s h.memory) h

theorem inv_writeGbufWord (w : Nat) (v : Word) (s : State) (h : Inv s) : Inv (writeGbufWord w v s) :=
  inv_operand_storage s _ rfl rfl rfl rfl (memory_wf_writeGbufWord w v s h.memory) h

/-- An error completion in IDLE keeps the invariant (60_exceptions.md R163; 10_state.md R54 point 3). -/
theorem inv_errorCompletion (e : LaunchError) (low : BitVec 3) (s : State) (hp : s.eng.phase = .idle) (he : e.1 ≠ .none)
    (h : Inv s) : Inv (errorCompletion e (noteLaunch low s)) := by
  have hb : s.regs.status.busy = false := by rw [h.status.busy_iff, hp]; rfl
  refine ⟨h.params, h.memory, ⟨?_, ?_, ?_, ?_, ?_, ?_⟩, ⟨?_, ?_, ?_, ?_⟩, fun hs => ?_⟩
  · simp [errorFlags, hp, hb]
  · simp [errorFlags, hb]
  · simpa [errorFlags] using he
  · simp [errorFlags]
  · simp [errorFlags]
  · simp [errorFlags]
  · simp
  · simp
  · simp
  · intro r hr; simp at hr
  · simp [hp] at hs

/-- An accepted launch keeps the invariant (40_divider.md R112). -/
theorem inv_accept (op : Op) (tr : Bool) (s : State) (hl : LegalOperands op s) (h : Inv s) :
    Inv (accept op tr (noteLaunch (commandLow op tr) s)) := by
  obtain ⟨l1, l2, l3, l4, l5, l6⟩ := hl
  refine ⟨h.params, h.memory, ⟨?_, ?_, ?_, ?_, ?_, ?_⟩, ⟨h.results.rlen_le, h.results.xlen_le, h.results.tcount_le, h.results.records⟩, fun _ => ?_⟩
  · simp [acceptFlags, acceptedEngine]
  · simp [acceptFlags]
  · simp [acceptFlags]
  · simp [acceptFlags]
  · simp [acceptFlags]
  · simp [acceptFlags]
  · have he : (accept op tr (noteLaunch (commandLow op tr) s)).eng = acceptedEngine op tr s := rfl
    have hlen : (workingBuffer op (dividendBits s) (s.regs.glen.toNat - 1)).length ≤ s.cfg.lmax := by
      rw [workingBuffer_length, dividendBits_length]
      split
      · next ho => have := l5 ho; omega
      · omega
    constructor <;> rw [he]
    · exact l1
    · exact l3
    · exact l4
    · exact dividendBits_length s
    · exact generatorBits_length s
    · obtain ⟨n, hn⟩ : ∃ n, s.regs.glen.toNat = n + 1 := ⟨s.regs.glen.toNat - 1, by omega⟩
      show (generatorBits s).head? = some true
      simp [generatorBits, hn, List.range_succ_eq_map, l6]
    · rfl
    · rfl
    · exact hlen
    · exact Nat.zero_le _
    · intro _; rfl
    · intro _; rfl
    · rfl
    · intro j hj; exact absurd hj (Nat.not_lt_zero j)
    · rfl
    · intro _ r hr; exact absurd hr (Nat.not_lt_zero r)

/-- A window step keeps the invariant (40_divider.md R113). -/
theorem inv_engineWindowStep (s : State) (hp : s.eng.phase = .sweep) (hw : s.eng.i + s.eng.nL ≤ s.eng.lw) (h : Inv s) :
    Inv (engineWindowStep s) := by
  have q := h.sweep hp
  have hwl : s.eng.i + s.eng.gL.length ≤ s.eng.wbuf.length := by rw [q.gen_length, q.buffer_length]; exact hw
  have hcl := windowStep_length _ _ _ hwl
  have htr := q.count_on
  have hcell : ∀ r, cellAt (engineWindowStep s).mem.trace r =
      if s.eng.trL = true ∧ r = s.eng.i then some (windowStep s.eng.wbuf s.eng.gL s.eng.i).2 else cellAt s.mem.trace r := by
    intro r
    rw [engineWindowStep_mem]
    by_cases ht : s.eng.trL = true
    · rw [if_pos ht]
      simp only [htr ht, cellAt_splice, List.length_singleton, ht, true_and]
      by_cases hr : r = s.eng.i
      · subst hr; simp
      · rw [if_neg (by omega), if_neg hr]
    · simp [ht]
  refine ⟨by simpa using h.params, ?_, ?_, ?_, fun _ => ?_⟩
  · rw [engineWindowStep_mem, engineWindowStep_cfg]
    split
    · next ht =>
      refine memory_wf_storeRecord s.eng.tc _ s h.memory ?_
      have := htr ht; have := q.lw_le; have := q.gen_pos
      simp only [Params.tmax, Params.wmax] at *; omega
    · exact h.memory
  · have hs := h.status
    constructor <;> simp only [engineWindowStep_regs]
    · rw [hs.busy_iff, engineWindowStep_eng]
    · exact hs.busy_clear
    · exact hs.err_done
    · exact hs.no_err
    · exact hs.clean_verify
    · exact hs.untraced
  · have hr := h.results
    constructor <;> simp only [engineWindowStep_regs, engineWindowStep_cfg]
    · exact hr.rlen_le
    · exact hr.xlen_le
    · exact hr.tcount_le
    · intro r hlt
      rw [hcell]
      split
      · next hc =>
        have hbl := substr_length s.eng.wbuf s.eng.i s.eng.gL.length hwl
        have hal := windowStep_after_length _ _ _ hwl
        have := q.gen_pos; have := q.gen_le; have hgl := q.gen_length
        exact ⟨_, rfl, hc.2.symm, by show 1 ≤ s.eng.gL.length; omega, by show s.eng.gL.length ≤ _; omega, hbl, hal, rfl⟩
      · exact hr.records r hlt
  · constructor <;> simp only [engineWindowStep_eng, engineWindowStep_cfg, engineWindowStep_regs]
    · exact q.len_pos
    · exact q.gen_pos
    · exact q.gen_le
    · exact q.data_length
    · exact q.gen_length
    · exact q.gen_leading
    · rw [hcl, q.buffer_length]
    · exact q.lw_eq
    · exact q.lw_le
    · have := q.gen_pos; unfold windowCount; omega
    · intro ht; rw [if_pos ht, htr ht]
    · intro ht; rw [if_neg (by simp [ht]), q.count_off ht]
    · exact q.command
    · intro j hj
      by_cases hji : j = s.eng.i
      · subst hji; exact windowStep_clears_leading _ _ _ hwl q.gen_leading
      · rw [windowStep_outside _ _ _ _ hwl (.inl (by omega))]; exact q.prefix_zero j (by omega)
    · rw [sweepSteps_buffer_succ, ← q.buffer_eq]
    · intro ht r hr
      rw [hcell, sweepSteps_records_succ, ← q.buffer_eq]
      have hlen : (sweepSteps (workingBuffer s.eng.opL s.eng.dL (s.eng.nL - 1)) s.eng.gL s.eng.i).2.length = s.eng.i := by
        refine (sweepSteps_length _ _ _ ?_).2
        rw [← q.lw_eq, q.gen_length]; exact q.offset_le
      by_cases hri : r = s.eng.i
      · rw [if_pos ⟨ht, hri⟩, List.getElem?_append_right (by omega), hlen, hri]; simp
      · rw [if_neg (by simp [hri]), List.getElem?_append_left (by omega)]; exact q.trace_eq ht r (by omega)

/-- The lengths a commit stores (40_divider.md R106; 41_encoder.md R144). -/
theorem toNat_ofNat_length (n : Nat) (h : n ≤ 32768) : (BitVec.ofNat 32 n).toNat = n := by
  rw [BitVec.toNat_ofNat]; omega

theorem params_legal_iff (p : Params) :
    p.legal = true ↔ 1 ≤ p.lmax ∧ p.lmax ≤ 32768 ∧ 1 ≤ p.nmax ∧ p.nmax ≤ 1024 := by
  simp [Params.legal, and_assoc]

/-- What a commit writes to the registers and the storage, for every command: the result's length, a frame length and a
verdict; the storage stays canonical. -/
theorem commit_results (s : State) (hp : s.eng.phase = .sweep) (h : Inv s) :
    let c := commit (remainder s.eng.wbuf s.eng.lw s.eng.nL) s
    c.mem.wf s.cfg = true ∧ c.regs.rlen.toNat ≤ s.cfg.rmax ∧ c.regs.xlen.toNat ≤ s.cfg.wmax ∧
      c.regs.lastCmd = s.regs.lastCmd ∧ (c.regs.status.clean = true → s.eng.opL = .verify) ∧
      { c.regs.status with clean := s.regs.status.clean } = s.regs.status := by
  have q := h.sweep hp
  have hpl := (params_legal_iff s.cfg).1 h.params
  have hrem : (remainder s.eng.wbuf s.eng.lw s.eng.nL).length = remainderLength s.eng.nL := by
    rw [← q.buffer_length]; exact remainder_length _ _ q.gen_pos
  have hrl : remainderLength s.eng.nL ≤ s.cfg.rmax := by
    have := q.gen_le; unfold remainderLength Params.rmax; omega
  have hrmax : s.cfg.rmax ≤ 1024 := by unfold Params.rmax; omega
  have hwmax : s.cfg.wmax ≤ 32768 := hpl.2.1
  intro c
  cases ho : s.eng.opL with
  | divide =>
    have hc : c = commitDivide (remainder s.eng.wbuf s.eng.lw s.eng.nL) s := commit_divide _ s ho
    rw [hc]
    refine ⟨memory_wf_storeResult _ s h.memory (by omega), ?_, ?_, rfl, ?_, rfl⟩
    · show (BitVec.ofNat 32 _).toNat ≤ _
      rw [toNat_ofNat_length _ (by omega)]; omega
    · exact Nat.zero_le _
    · intro hx; exact absurd hx (by simp [commitDivide])
  | verify =>
    have hc : c = commitVerify (remainder s.eng.wbuf s.eng.lw s.eng.nL) s := commit_verify _ s ho
    rw [hc]
    refine ⟨memory_wf_storeResult _ s h.memory (by omega), ?_, ?_, rfl, fun _ => rfl, rfl⟩
    · show (BitVec.ofNat 32 _).toNat ≤ _
      rw [toNat_ofNat_length _ (by omega)]; omega
    · exact Nat.zero_le _
  | encode =>
    have hc : c = commitEncode (remainder s.eng.wbuf s.eng.lw s.eng.nL) s := commit_encode _ s ho
    have hcs := checksum_length _ _ q.gen_pos hrem
    have hk : s.eng.nL - 1 ≤ s.cfg.rmax := by unfold remainderLength at hrl; omega
    have hlw := q.lw_eq
    rw [ho, workingBuffer_length, if_pos rfl] at hlw
    have hfr : (s.eng.dL ++ checksum (remainder s.eng.wbuf s.eng.lw s.eng.nL) (s.eng.nL - 1)).length ≤ s.cfg.wmax := by
      rw [List.length_append, hcs, ← hlw]; exact q.lw_le
    rw [hc]
    refine ⟨memory_wf_storeFrame _ (storeResult _ s) (memory_wf_storeResult _ s h.memory (by omega)) hfr, ?_, ?_, rfl, ?_, rfl⟩
    · show (BitVec.ofNat 32 _).toNat ≤ _
      rw [toNat_ofNat_length _ (by omega)]; omega
    · show (BitVec.ofNat 32 _).toNat ≤ _
      rw [toNat_ofNat_length _ (by omega)]; exact hfr
    · intro hx; exact absurd hx (by simp [commitEncode])

/-- Every record of a sweep is the record of its own offset (40_divider.md R107). -/
theorem sweepSteps_record (d g : Bits) (m r : Nat) (hm : m ≤ windowCount d.length g.length) (hr : r < m) :
    ∃ rec, (sweepSteps d g m).2[r]? = some rec ∧ rec = (windowStep (sweepSteps d g r).1 g r).2 ∧
      rec.off = r ∧ rec.width = g.length ∧ rec.before.length = g.length ∧ rec.after.length = g.length ∧
      rec.xored = rec.before.headD false := by
  induction m with
  | zero => omega
  | succ m ih =>
    have hl := sweepSteps_length d g m (by omega)
    rw [sweepSteps_records_succ]
    by_cases hrm : r = m
    · subst hrm
      have hw : r + g.length ≤ (sweepSteps d g r).1.length := by rw [hl.1]; unfold windowCount at hm; omega
      refine ⟨_, by rw [List.getElem?_append_right (by omega), hl.2]; simp, rfl, rfl, rfl, substr_length _ _ _ hw,
        windowStep_after_length _ _ _ hw, rfl⟩
    · rw [List.getElem?_append_left (by omega)]; exact ih (by omega) (by omega)

/-- A finish step keeps the invariant (40_divider.md R114). -/
theorem inv_engineFinishStep (s : State) (hp : s.eng.phase = .sweep) (h : Inv s) : Inv (engineFinishStep s) := by
  have q := h.sweep hp
  have hpl := (params_legal_iff s.cfg).1 h.params
  obtain ⟨c1, c2, c3, c4, c5, c6⟩ := commit_results s hp h
  have fr := commit_frame (remainder s.eng.wbuf s.eng.lw s.eng.nL) s
  have e3 : (commit (remainder s.eng.wbuf s.eng.lw s.eng.nL) s).regs.status.err = s.regs.status.err := by rw [← c6]
  have e5 : (commit (remainder s.eng.wbuf s.eng.lw s.eng.nL) s).regs.status.errCode = s.regs.status.errCode := by rw [← c6]
  have e6 : (commit (remainder s.eng.wbuf s.eng.lw s.eng.nL) s).regs.status.errArg = s.regs.status.errArg := by rw [← c6]
  have hbusy : s.regs.status.busy = true := by rw [h.status.busy_iff, hp]; rfl
  have hnerr := (h.status.busy_clear hbusy).2.1
  have htc : s.eng.tc ≤ s.cfg.tmax := by
    have h2 := q.offset_le; have h3 := q.lw_le; have h4 := q.gen_pos
    simp only [Params.tmax, Params.wmax, windowCount] at *
    cases ht : s.eng.trL
    · rw [q.count_off ht]; omega
    · rw [q.count_on ht]; omega
  have htn : (BitVec.ofNat 32 s.eng.tc).toNat = s.eng.tc := toNat_ofNat_length _ (by have := hpl.2.1; simp only [Params.tmax] at htc; omega)
  refine ⟨by simpa using h.params, ?_, ⟨?_, ?_, ?_, ?_, ?_, ?_⟩, ⟨?_, ?_, ?_, ?_⟩, fun hs => ?_⟩
  · rw [engineFinishStep_cfg, engineFinishStep_mem]; exact c1
  · rw [engineFinishStep_regs, engineFinishStep_eng]; rfl
  · rw [engineFinishStep_regs]; intro hb; exact absurd hb (by simp [finishFlags])
  · rw [engineFinishStep_regs]; intro hb; exact absurd hb (by simp [finishFlags, e3, hnerr])
  · rw [engineFinishStep_regs]; intro _
    simp only [finishFlags, e5, e6]; exact h.status.no_err hnerr
  · rw [engineFinishStep_regs]; intro hcl
    refine ⟨rfl, ?_, ?_⟩
    · simp only [finishFlags, e3, hnerr]
    · simp only [c4]
      rw [q.command, c5 hcl]
      cases s.eng.trL <;> rfl
  · rw [engineFinishStep_regs]; intro _ ht
    have ht : s.eng.trL = false := ht
    simp [ht]
  · rw [engineFinishStep_regs, engineFinishStep_cfg]; exact c2
  · rw [engineFinishStep_regs, engineFinishStep_cfg]; exact c3
  · rw [engineFinishStep_regs, engineFinishStep_cfg]
    cases ht : s.eng.trL
    · simp
    · simpa [htn] using htc
  · rw [engineFinishStep_regs, engineFinishStep_cfg, engineFinishStep_mem, fr.2.2.2.2.2.2.2.2]
    intro r hr
    cases ht : s.eng.trL
    · simp [ht] at hr
    · have hr : r < s.eng.i := by
        have hr : r < (if s.eng.trL = true then BitVec.ofNat 32 s.eng.tc else 0).toNat := hr
        rw [if_pos ht, htn, q.count_on ht] at hr; exact hr
      have hle : s.eng.i ≤ windowCount (workingBuffer s.eng.opL s.eng.dL (s.eng.nL - 1)).length s.eng.gL.length := by
        rw [← q.lw_eq, q.gen_length]; exact q.offset_le
      obtain ⟨rec, r1, -, r2, r3, r4, r5, r6⟩ := sweepSteps_record _ _ _ _ hle hr
      have := q.gen_pos; have := q.gen_le; have := q.gen_length
      exact ⟨rec, by rw [q.trace_eq ht r hr, r1], r2, by omega, by omega, by omega, by omega, r6⟩
  · rw [engineFinishStep_eng] at hs; exact absurd hs (by simp)

/-- Reset leaves the invariant true (10_state.md R53). -/
theorem inv_resetBlock (s : State) (h : s.cfg.legal = true) : Inv (resetBlock s) := by
  refine ⟨h, memory_wf_reset _, ⟨?_, ?_, ?_, ?_, ?_, ?_⟩, ⟨?_, ?_, ?_, ?_⟩, fun hs => ?_⟩
  · rfl
  all_goals try simp [Regs.reset, Status.reset]
  simp [Engine.reset] at hs

end Sys2Proof.Machine
end

