-- ==== Sys2Proof/Tests/Slice0.lean ====
section
/-! SUPPORT. The model's own tests: the well-formedness smoke test, words written out bit by bit, single steps against the
worked examples of 95_test_vectors.md, and a witness for the hypotheses of each statement. Every expected value comes from
spec/, as cited. -/

namespace Sys2Proof.Tests

open Sys2Proof Sys2Proof.Machine

/-! ## WellFormed refuses ill-formed terms -/

/-- RSVD = 0 and OP = 01 is ENCODE, no illegal launch (30_encoding.md R85). -/
theorem test_illegal_needs_an_illegal_word : (Instr.illegal 0 1 1).wellFormed = false := by decide

/-- The generator buffer has words 0 to 31, the data buffer words 0 to 1023 (20_memory.md R60). -/
theorem test_buffer_words_end : Reg.wellFormed (.gbuf 32) = false ∧ Reg.wellFormed (.rbuf 32) = false ∧
    Reg.wellFormed (.trecBefore 32) = false ∧ Reg.wellFormed (.trecAfter 32) = false ∧
    Reg.wellFormed (.dbuf 1024) = false ∧ Reg.wellFormed (.xbuf 1024) = false := by decide

/-- Only an aligned word inside the window is admitted (20_memory.md R66). -/
theorem test_access_checks : admittedAccess 1 0x0004 = false ∧ admittedAccess 4 0x0005 = false ∧
    admittedAccess 4 0x4000 = false ∧ admittedAccess 4 0x3FFC = true := by decide

/-- A statement is refused when its access is (30_encoding.md R93; 20_memory.md R66). -/
theorem test_statement_checks : HostOp.wellFormed (.wr 0x0002 0) = false ∧ HostOp.wellFormed (.wrT 0x4000) = false ∧
    HostOp.wellFormed (.wrTXor 0x1001 1) = false ∧ HostOp.wellFormed (.rd 0x0005) = false ∧
    HostOp.wellFormed (.rdEq 0x4004 0) = false ∧ HostOp.wellFormed (.poll 0x0006 2 2) = false ∧
    HostOp.wellFormed (.readSized 2 0x0004) = false ∧ HostOp.wellFormed (.writeSized 8 0x0000 0) = false := by decide

/-! ## Words written out from the fields of 30_encoding.md R80: START, RSVD, T, OP -/

theorem test_decode_divide : decodeWord 0b1_0000000000000000000000000000_0_00#32 = .divide := by decide
theorem test_decode_divideT : decodeWord 0b1_0000000000000000000000000000_1_00#32 = .divideT := by decide
theorem test_decode_encode : decodeWord 0b1_0000000000000000000000000000_0_01#32 = .encode := by decide
theorem test_decode_encodeT : decodeWord 0b1_0000000000000000000000000000_1_01#32 = .encodeT := by decide
theorem test_decode_verify : decodeWord 0b1_0000000000000000000000000000_0_10#32 = .verify := by decide
theorem test_decode_verifyT : decodeWord 0b1_0000000000000000000000000000_1_10#32 = .verifyT := by decide
theorem test_decode_nop : decodeWord 0b0_0000000000000000000000000000_0_11#32 = .nop 3 := by decide
theorem test_decode_illegal : decodeWord 0b1_0000000000000000000000000000_1_11#32 = .illegal 0 1 3 ∧
    decodeWord 0b1_0000000000000000000000000001_0_00#32 = .illegal 1 0 0 := by decide

/-- opcode_table.json gives every row 32 bits; another length is no command word (30_encoding.md R80). -/
theorem test_decode_table_word : decodeTableWord 32 0x80000005 = some .encodeT ∧
    decodeTableWord 16 0x0005 = none ∧ decodeTableWord 64 0x80000005 = none := by decide

/-! ## Small states -/

/-- IDLE after a reset, with the lengths and the first word of each operand buffer written. -/
def ready (dlen glen dword gword : Word) : State :=
  let s := resetBlock State.reset
  writeGbufWord 0 gword (writeDbufWord 0 dword { s with regs := { s.regs with dlen := dlen, glen := glen } })

/-- The operands of 95_test_vectors.md V1: D = "1101", G = "1011". -/
def v1 : State := ready 4 4 0xD0000000 0xB0000000

/-- The largest lengths that check 6 of 60_exceptions.md R166 still passes (V18 row 6). -/
def largest : State := ready 992 33 0xFFFFFFFF 0x80000000

/-- V1 right after its launch was accepted: in SWEEP, nothing of the sweep done. -/
def sweeping : State := accept .encode true (noteLaunch (commandLow .encode true) v1)

/-- V1 with every window done: the working buffer of V1's last `W` line, the finish step next. -/
def finishing (op : Op) : State :=
  { sweeping with eng := { sweeping.eng with
      opL := op, wbuf := [false, false, false, false, false, false, true], i := 4, tc := 4 } }

/-- V1 after the commit, without trace: results in IDLE (V25). -/
def finished : State := engineStep { finishing .encode with eng := { (finishing .encode).eng with trL := false } }

theorem inv_ready (dlen glen dword gword : Word) : Inv (ready dlen glen dword gword) := by
  refine inv_writeGbufWord _ _ _ (inv_writeDbufWord _ _ _ ?_)
  exact inv_host_registers (resetBlock State.reset) _ rfl rfl rfl rfl rfl rfl rfl rfl (inv_resetBlock _ (by decide))

theorem legal_v1 (op : Op) : LegalOperands op v1 :=
  ⟨by decide, by decide, by decide, by decide, fun _ => by decide, by decide⟩

theorem inv_sweeping : Inv sweeping := inv_accept _ _ _ (legal_v1 _) (inv_ready _ _ _ _)

/-! ## Operands, launches and errors -/

/-- 95_test_vectors.md section 1: "1011" is the word 0xB0000000. -/
theorem test_packing : packWord (fun j => [true, false, true, true].getD j false) 0 = 0xB0000000#32 ∧
    (unpackWord 0xB0000000#32).take 4 = [true, false, true, true] := by decide

/-- V21: string position 40 is bit 23 of word 1 (20_memory.md R63). -/
theorem test_packing_second_word : packWord (fun j => j == 40) 1 = 0x00800000#32 := by decide

theorem test_operands : dividendBits v1 = [true, true, false, true] ∧ generatorBits v1 = [true, false, true, true] := by
  decide

/-- V1: the working buffer is "1101000" and Lw = 7. -/
theorem test_encode_launch : exec .encodeT v1 = .next sweeping ∧
    sweeping.eng.wbuf = [true, true, false, true, false, false, false] ∧ sweeping.eng.lw = 7 := ⟨rfl, by decide, by decide⟩

/-- V4: DIVIDE divides the data as it stands. -/
theorem test_divide_launch : (accept .divide true v1).eng.wbuf = [true, true, false, true] := by decide

/-- V23 step 1: STATUS reads 0x00000001 while the command runs. -/
theorem test_running_status : statusWord sweeping.regs.status = 0x00000001#32 := by decide

/-- V16: LASTCMD and STATUS after an illegal launch. -/
theorem test_illegal_launch : exec (.illegal 1 1 1) v1 =
    .next (errorCompletion (.illegalCommand, false) (noteLaunch 0b101 v1)) ∧
    statusWord (errorCompletion (.illegalCommand, false) v1).regs.status = 0x00000036#32 := ⟨rfl, by decide⟩

/-- V17 and V18: STATUS after each check that fails, row by row. -/
theorem test_check_order :
    operandCheck .encode (ready 0 4 0 0xB0000000) = some (.invalidInput, false) ∧
    operandCheck .divide (ready 4 0 0 0) = some (.invalidInput, true) ∧
    operandCheck .verify (ready 0 0 0 0) = some (.invalidInput, false) ∧
    operandCheck .verify (ready 4 4 0 0x50000000) = some (.invalidGenerator, true) ∧
    operandCheck .divide (ready 4 1 0 0) = some (.invalidGenerator, true) := by decide

theorem test_capacity_checks :
    operandCheck .divide (ready 1025 4 0 0) = some (.capacity, false) ∧
    operandCheck .divide (ready 4 34 0 0) = some (.capacity, true) ∧
    operandCheck .encode (ready 993 33 0 0x80000000) = some (.capacity, false) ∧
    operandCheck .encode largest = none ∧ operandCheck .divide (ready 993 33 0 0x80000000) = none ∧
    operandCheck .divide (ready 0x00010000 4 0 0) = some (.capacity, false) := by decide

/-- 30_encoding.md R92. -/
theorem test_error_status_words :
    statusWord (errorFlags .invalidInput false Status.reset) = 0x00000016#32 ∧
    statusWord (errorFlags .invalidInput true Status.reset) = 0x00000116#32 ∧
    statusWord (errorFlags .invalidGenerator true Status.reset) = 0x00000126#32 ∧
    statusWord (errorFlags .capacity false Status.reset) = 0x00000046#32 ∧
    statusWord (errorFlags .capacity true Status.reset) = 0x00000146#32 := by decide

/-- V23 step 2: a launch in SWEEP sets DROPPED and leaves LASTCMD. -/
theorem test_dropped_launch : exec .verify sweeping = .next (dropLaunch sweeping) ∧
    statusWord (dropLaunch sweeping).regs.status = 0x00000201#32 ∧ (dropLaunch sweeping).regs.lastCmd = 0b101 :=
  ⟨rfl, by decide, by decide⟩

/-! ## The division -/

/-- V1's first window and V3's first window: XOR applied, and not applied. -/
theorem test_window_steps :
    windowStep [true, true, false, true, false, false, false] [true, false, true, true] 0 =
      ([false, true, true, false, false, false, false],
        ⟨0, 4, [true, true, false, true], true, [false, true, true, false]⟩) ∧
    (windowStep [false, true, false, true, false, false, true] [true, false, true, true] 0).2 =
      ⟨0, 4, [false, true, false, true], false, [false, true, false, true]⟩ := by decide

/-- V4, V7, V9 and V10: the remainder of the ordinary, the one-bit, the short and the equal-length case. -/
theorem test_remainders :
    (mod2Div [true, true, false, true, false, false, false] [true, false, true, true]).1 = [false, false, true] ∧
    (mod2Div [true, false, true, true] [true]).1 = [false] ∧
    (mod2Div [true, false] [true, false, true, true]).1 = [false, true, false] ∧
    (mod2Div [true, false, true] [true, false, true, true]).1 = [true, false, true] := by decide

/-- V14: the three records of a division by "11". -/
theorem test_trace : (mod2Div [true, true, false, true] [true, true]).2 =
    [⟨0, 2, [true, true], true, [false, false]⟩, ⟨1, 2, [false, false], false, [false, false]⟩,
      ⟨2, 2, [false, true], false, [false, true]⟩] := by decide

/-- V1 and V8: the frame, and the empty checksum of the one-bit generator. -/
theorem test_encode_frames :
    encodeFrame [true, true, false, true] [true, false, true, true] =
      ([false, false, true], [true, true, false, true, false, false, true]) ∧
    encodeFrame [true, false, true, true] [true] = ([], [true, false, true, true]) := by decide

/-- V2, V3 and V19: a clean frame, a detected flip, and the undetected flip of a one-term generator. -/
theorem test_verify_frames :
    verifyFrame [true, true, false, true, false, false, true] [true, false, true, true] = (true, [false, false, false]) ∧
    verifyFrame [false, true, false, true, false, false, true] [true, false, true, true] = (false, [true, false, true]) ∧
    verifyFrame [false, false, false] [true, false, false] = (true, [false, false]) := by decide

/-! ## The engine -/

/-- V1: the buffer after the first window step, and its record. -/
theorem test_engine_window :
    (engineStep sweeping).eng.wbuf = [false, true, true, false, false, false, false] ∧ (engineStep sweeping).eng.i = 1 ∧
    (engineStep sweeping).eng.tc = 1 ∧ (engineStep sweeping).regs = sweeping.regs ∧
    traceRecord (engineStep sweeping) 0 = ⟨0, 4, [true, true, false, true], true, [false, true, true, false]⟩ := by decide

/-- V1: STATUS, RLEN, XLEN and TCOUNT after the finish step. -/
theorem test_engine_finish_encode :
    statusWord (engineStep (finishing .encode)).regs.status = 0x00000402#32 ∧
    (engineStep (finishing .encode)).regs.rlen = 3 ∧ (engineStep (finishing .encode)).regs.xlen = 7 ∧
    (engineStep (finishing .encode)).regs.tcount = 4 ∧ (engineStep (finishing .encode)).eng.phase = .idle := by decide

/-- V4: STATUS and RLEN after the finish step of DIVIDE.T; V3: a remainder that is not zero is not clean. -/
theorem test_engine_finish_divide_verify :
    statusWord (engineStep (finishing .divide)).regs.status = 0x00000402#32 ∧
    (engineStep (finishing .divide)).regs.xlen = 0 ∧ (engineStep (finishing .divide)).regs.rlen = 3 ∧
    statusWord (engineStep (finishing .verify)).regs.status = 0x00000402#32 := by decide

/-- V2 and V10: a clean VERIFY.T, and the flags of an empty trace that is present. -/
theorem test_flags : statusWord { finishFlags true Status.reset with clean := true } = 0x0000040A#32 ∧
    statusWord (finishFlags true Status.reset) = 0x00000402#32 ∧ cleanVerdict [false, false, false] = true ∧
    cleanVerdict [true, false, true] = false := by decide

/-- V27: the interrupt line. -/
theorem test_irq : irq sweeping = false ∧ irq finished = false ∧
    irq { finished with regs := { finished.regs with irqEn := true } } = true := by decide

/-! ## The window -/

/-- V25: the masked results, the capacity registers and reserved space. -/
theorem test_reads_after_v1 :
    regValue finished (.rbuf 0) = 0x20000000#32 ∧ regValue finished (.rbuf 1) = 0 ∧
    regValue finished (.xbuf 0) = 0xD2000000#32 ∧ regValue finished (.dbuf 0) = 0xD0000000#32 ∧
    regValue finished .capLmax = 0x00000400#32 ∧ regValue finished .capNmax = 0x00000021#32 ∧
    regValue finished (regAt 0x0030) = 0 := by decide

/-- V25: storage ends at LMAX and at NMAX, and words beyond it read 0. -/
theorem test_storage_ends : regValue (writeGbufWord 1 0xFFFFFFFF v1) (.gbuf 1) = 0x80000000#32 ∧
    regValue v1 (.gbuf 2) = 0 ∧ regValue v1 (.dbuf 32) = 0 ∧
    regValue (writeDbufWord 0 0xFFFFFFFF v1) (.dbuf 0) = 0xFFFFFFFF#32 := by decide

/-- V1: the header and the windows of record 1. -/
theorem test_trace_views :
    traceHeader ⟨1, 4, [true, true, false, false], true, [false, true, true, true]⟩ = 0x80040001#32 ∧
    regValue { finished with
      regs := { finished.regs with tcount := 2, tidx := 1 }
      mem := { finished.mem with
        trace := [(1, ⟨1, 4, [true, true, false, false], true, [false, true, true, true]⟩)] } } (.trecAfter 0) =
      0x70000000#32 := by decide

/-- 20_memory.md R60: the ends of the map's ranges. -/
theorem test_map : regAt 0x002C = .capNmax ∧ regAt 0x0030 = .reserved ∧ regAt 0x00FC = .reserved ∧
    regAt 0x0100 = .gbuf 0 ∧ regAt 0x017C = .gbuf 31 ∧ regAt 0x01FC = .rbuf 31 ∧ regAt 0x027C = .trecBefore 31 ∧
    regAt 0x02FC = .trecAfter 31 ∧ regAt 0x0300 = .reserved ∧ regAt 0x1FFC = .dbuf 1023 ∧ regAt 0x2FFC = .xbuf 1023 ∧
    regAt 0x3FFC = .reserved := by decide

/-- V25's last row: a byte read at offset 0x0005 is refused. -/
theorem test_bad_access : memRead 1 0x0005 State.reset = .refused (.badAccess 1 0x0005) := rfl

/-- P1: the expansions of LOADG and of a command (30_encoding.md R94). -/
theorem test_expansions : hostLoadG [true, false, true, true] = [.wr 0x0010 4, .wr 0x0100 0xB0000000] ∧
    hostCommand .verify = [.wr 0x0000 0x80000002] ∧ hostWaitDone = [.poll 0x0004 2 2] ∧
    copyXdRest 7 = [.wrT 0x000C, .rd 0x2000, .wrT 0x1000] := by decide

/-- The next step runs the word that withFetchWord places (V26: INVALID_INPUT right after reset). -/
theorem test_first_step : ∃ t, step (State.reset.withFetchWord 32 0x80000000) = .next t ∧
    statusWord t.regs.status = 0x00000016#32 := ⟨_, rfl, by decide⟩

/-! ## Witnesses: each meets all the hypotheses of the statement it is named after -/

theorem witness_DecodeOfEncodeIsIdentity : (Instr.illegal 0 1 3).wellFormed = true ∧
    (Instr.illegal 1 0 0).wellFormed = true ∧ (Instr.nop 0x7FFFFFFF).wellFormed = true := by decide

theorem witness_PatternsThatAreNoWordAreRejected : (31 ≠ 32 ∧ 33 ≠ 32) ∧ 2 ^ 32 ≤ 0x100000000 := by decide

/-- A host about to write `v` to CTRL. -/
def aboutToWrite (v : Word) : State := v1.withFetchWord 32 v.toNat

theorem witness_StepRunsTheDecodedCommandWord :
    ((aboutToWrite 0x80000005).turns = .host :: [] ∧ (aboutToWrite 0x80000005).host.prog = .wr 0x0000 0x80000005 :: []) ∧
    ({ aboutToWrite 0 with turns := [] }.eng.phase = .idle ∧
      { aboutToWrite 0 with turns := [] }.host.prog = .wr 0x0000 0 :: []) := by decide

theorem witness_NopHasNoEffect : (0x7FFFFFFF#32).getLsbD 31 = false := by decide

/-- Every command is legal on the operands of V1, and at the largest lengths. -/
theorem witness_AcceptedLaunchSnapshotsTheOperands : v1.eng.phase = .idle ∧ (∀ op, LegalOperands op v1) ∧
    largest.eng.phase = .idle ∧ LegalOperands .encode largest :=
  ⟨by decide, legal_v1, by decide, by decide, by decide, by decide, by decide, fun _ => by decide, by decide⟩

/-- One state for each clause, at the ends of its range: L = 0, LMAX + 1; n = 0, NMAX + 1; L + n - 1 = LMAX + 1, LMAX. -/
theorem witness_LaunchReportsTheFirstFailingCheck :
    (ready 0 0 0 0).regs.dlen.toNat = 0 ∧
    State.reset.cfg.lmax < (ready 1025 0 0 0).regs.dlen.toNat ∧
    (1 ≤ (ready 1024 0 0 0).regs.dlen.toNat ∧ (ready 1024 0 0 0).regs.dlen.toNat ≤ State.reset.cfg.lmax ∧
      (ready 1024 0 0 0).regs.glen.toNat = 0) ∧
    State.reset.cfg.nmax < (ready 1 34 0 0).regs.glen.toNat ∧
    ((ready 992 34 0 0).regs.dlen.toNat = 992 ∧
      State.reset.cfg.lmax < (ready 992 34 0 0).regs.dlen.toNat + (ready 992 34 0 0).regs.glen.toNat - 1) ∧
    (State.reset.cfg.lmax < (ready 993 33 0 0).regs.dlen.toNat + (ready 993 33 0 0).regs.glen.toNat - 1 ∧
      (ready 993 33 0 0).regs.glen.toNat = State.reset.cfg.nmax) ∧
    ((ready 992 33 0 0).regs.dlen.toNat + (ready 992 33 0 0).regs.glen.toNat - 1 = State.reset.cfg.lmax ∧
      gbufBit (ready 992 33 0 0) 0 = false) ∧
    gbufBit largest 0 = true := by decide

theorem witness_ErrorCompletionWritesOnlyItsFields : v1.eng.phase = .idle ∧ v1.regs.status.busy = false := by decide

/-- RSVD at its lowest and highest bit, and OP = 11 alone. -/
theorem witness_IllegalLaunchEndsInIllegalCommand : v1.eng.phase = .idle ∧
    ((0x80000008#32).getLsbD 31 = true ∧ (0x80000008#32).extractLsb' 3 28 ≠ 0) ∧
    ((0xC0000000#32).getLsbD 31 = true ∧ (0xC0000000#32).extractLsb' 3 28 ≠ 0) ∧
    ((0x80000003#32).getLsbD 31 = true ∧ (0x80000003#32).extractLsb' 0 2 = 0b11#2) := by decide

theorem witness_LaunchDuringSweepIsDropped : sweeping.eng.phase = .sweep ∧ (0x80000007#32).getLsbD 31 = true := by decide

/-- The first and the last window of V1, with the leading bit 1 and 0, and the one-bit generator. -/
theorem witness_WindowStepXorsTheGeneratorIn :
    ([true, false, true, true].head? = some true ∧ 0 + 4 ≤ 7 ∧ 3 + 4 ≤ 7) ∧
    ([true, true, false, true, false, false, false] : Bits)[0]? = some true ∧
    ([true, true, false, true, false, false, false] : Bits)[2]? = some false ∧
    [true].head? = some true := by decide

theorem witness_TraceHoldsOneRecordPerWindow :
    1 ≤ [true, false, true, true].length ∧ [true, false, true, true].head? = some true ∧
    1 ≤ [true].length ∧ [true].head? = some true ∧
    (mod2Div [true, true, false, true] [true, true]).2.length = 3 := by decide

/-- n = 1; L = n - 1; L = n - 2. -/
theorem witness_RemainderInEveryCase : [true].length = 1 ∧
    (2 ≤ [true, false, true, true].length ∧ 4 - 1 ≤ [true, false, true].length) ∧ [true, false].length < 4 - 1 := by decide

theorem witness_RemainderIsThePolynomialRemainder : 2 ≤ [true, true].length ∧ [true, true].head? = some true := by decide

theorem witness_FrameIsTheDataThenItsChecksum : 1 ≤ [true].length ∧ [true].length - 1 = 0 ∧
    1 ≤ [true, true].length - 1 := by decide

theorem witness_VerdictIsAnAllZeroRemainder : (finishing .verify).eng.phase = .sweep ∧
    (finishing .verify).eng.lw < (finishing .verify).eng.i + (finishing .verify).eng.nL ∧
    (finishing .verify).eng.opL = .verify := by decide

theorem witness_EncodedFrameVerifiesClean : 1 ≤ [true].length ∧ [true].head? = some true := by decide

/-- The first and the last position of V1's frame. -/
theorem witness_SingleBitErrorIsDetected :
    1 ≤ [true, true, false, true].length ∧ 2 ≤ [true, false, true, true].length ∧
    [true, false, true, true].head? = some true ∧ 2 ≤ [true, false, true, true].count true ∧
    0 < (encodeFrame [true, true, false, true] [true, false, true, true]).2.length ∧
    6 < (encodeFrame [true, true, false, true] [true, false, true, true]).2.length := by decide

/-- The first and the last window of V1. -/
theorem witness_EngineWindowStepDoesOneWindow :
    (sweeping.eng.phase = .sweep ∧ sweeping.eng.i + sweeping.eng.nL ≤ sweeping.eng.lw) ∧
    { sweeping.eng with i := 3 }.i + sweeping.eng.nL = sweeping.eng.lw := by decide

theorem witness_EngineFinishStepCommitsEveryResult : ∀ op ∈ [Op.divide, .encode, .verify],
    (finishing op).eng.phase = .sweep ∧ (finishing op).eng.lw < (finishing op).eng.i + (finishing op).eng.nL ∧
    (finishing op).eng.opL = op := by decide

theorem witness_EngineStepsKeepTheOperands : (engineSteps 0 sweeping).eng.phase = .sweep := by decide

theorem witness_DivideRunsToItsRemainder : v1.cfg.legal = true ∧ v1.eng.phase = .idle ∧ LegalOperands .divide v1 :=
  ⟨by decide, by decide, legal_v1 _⟩

theorem witness_EncodeRunsToItsFrame : largest.cfg.legal = true ∧ largest.eng.phase = .idle ∧
    LegalOperands .encode largest :=
  ⟨by decide, witness_AcceptedLaunchSnapshotsTheOperands.2.2⟩

theorem witness_VerifyRunsToItsVerdict : v1.cfg.legal = true ∧ v1.eng.phase = .idle ∧ LegalOperands .verify v1 :=
  ⟨by decide, by decide, legal_v1 _⟩

theorem witness_TraceFlagChangesOnlyTheTrace : v1.eng.phase = .idle ∧ ∀ op, LegalOperands op v1 := ⟨by decide, legal_v1⟩

/-- D = "1" and G = "11" leave the frame "11" after two engine steps (41_encoder.md R140). -/
theorem witness_VerifyOfAnEncodedFrameEndsClean :
    let s := ready 1 2 0x80000000 0xC0000000
    let v := ready 2 2 0xC0000000 0xC0000000
    s.cfg.legal = true ∧ v.cfg = s.cfg ∧ s.eng.phase = .idle ∧ v.eng.phase = .idle ∧ LegalOperands .encode s ∧
    ∀ t, exec .encode s = .next t →
      dividendBits v = frameBits (engineSteps (s.regs.dlen.toNat + 1) t) ∧ generatorBits v = generatorBits s := by
  refine ⟨by decide, by decide, by decide, by decide,
    ⟨by decide, by decide, by decide, by decide, fun _ => by decide, by decide⟩, fun t h => ?_⟩
  have e : t = accept .encode false (noteLaunch (commandLow .encode false) (ready 1 2 0x80000000 0xC0000000)) :=
    (Host.Outcome.next.inj h).symm
  subst e
  exact ⟨by decide, by decide⟩

theorem witness_OneBitGeneratorAlwaysVerifiesClean :
    let s := ready 4 1 0xB0000000 0x80000000
    s.cfg.legal = true ∧ s.eng.phase = .idle ∧ LegalOperands .verify s ∧ s.regs.glen = 1 :=
  ⟨by decide, by decide, ⟨by decide, by decide, by decide, by decide, fun _ => by decide, by decide⟩, by decide⟩

theorem witness_RunningCommandEndsAfterItsSteps : Inv sweeping ∧ sweeping.eng.phase = .sweep ∧ sweeping.turns = [] ∧
    windowCount sweeping.eng.lw sweeping.eng.nL - sweeping.eng.i = 4 := ⟨inv_sweeping, by decide, by decide, by decide⟩

/-- A host that rewrites the length of the running data between two engine steps (V29). -/
theorem witness_HostNeverChangesARunningCommand :
    let s : State := { sweeping with host := { sweeping.host with prog := [.wr 0x000C 2] } }
    (∀ t ∈ [Turn.engine, .host], t ≠ .reset) ∧
    (∀ j, j ≤ [Turn.engine, .host].count .engine → (engineSteps j s).eng.phase = .sweep) ∧
    ∃ u, Host.Core.run Sys2Proof.core [Turn.engine, Turn.host].length { s with turns := [.engine, .host] ++ [] } = .next u :=
  ⟨by decide, by decide, _, rfl⟩

theorem witness_EveryStepKeepsTheInvariant : Inv sweeping ∧ ∃ t, step sweeping = .next t := ⟨inv_sweeping, _, rfl⟩

theorem witness_ParametersAtTheEndsOfTheirRanges : (Params.mk 1 1).legal = true ∧ (Params.mk 32768 1024).legal = true ∧
    Params.reference.legal = true := by decide

theorem witness_ResetSetsEveryRegister : { sweeping with turns := [.reset, .host] }.turns = .reset :: [.host] := by decide

theorem witness_StepsKeepTheParameters : ∃ t, step sweeping = .next t := ⟨_, rfl⟩

/-- Both values of START, and the last offsets of each reserved range and of each buffer. -/
theorem witness_HostWriteReachesOnlyItsRegister : (0x7FFFFFFF#32).getLsbD 31 = false ∧ (0x80000000#32).getLsbD 31 = true ∧
    31 < 32 ∧ 1023 < 1024 ∧ ∀ off ∈ [0x0030, 0x00FC, 0x0300, 0x0FFC, 0x3000, 0x3FFC], off % 4 = 0 ∧
      (0x0030 ≤ off ∧ off < 0x0100 ∨ 0x0300 ≤ off ∧ off < 0x1000 ∨ 0x3000 ≤ off ∧ off < 0x4000) := by decide

theorem witness_BufferWordsArePackedMsbFirst : 31 < 32 ∧ 1023 < 1024 ∧ 3 < v1.regs.dlen.toNat ∧ 3 < v1.regs.glen.toNat := by
  decide

/-- No command running, bits 0 and 31, the last words, and a record to show. -/
theorem witness_ResultViewsAreMaskedByTheirLengths : finished.regs.status.busy = false ∧ 0 < 32 ∧ 31 < 32 ∧ 1023 < 1024 ∧
    let s : State := { finished with
      regs := { finished.regs with tcount := 1 }
      mem := { finished.mem with trace := [(0, ⟨0, 4, [true, true, false, true], true, [false, true, true, false]⟩)] } }
    s.regs.status.busy = false ∧ s.regs.tidx.toNat < s.regs.tcount.toNat ∧
      (traceRecord s s.regs.tidx.toNat).width ≤ s.cfg.nmax := by decide

theorem witness_BusyReadsOfResultsAreFreshDraws : sweeping.regs.status.busy = true := by decide

/-- An admitted access at each end of the window, and one outside each of the three conditions. -/
theorem witness_OnlyAlignedWordAccessesAreAdmitted : (4 = 4 ∧ 0 % 4 = 0 ∧ 0 < 0x4000) ∧ (0x3FFC % 4 = 0 ∧ 0x3FFC < 0x4000) ∧
    ¬ (2 = 4) ∧ ¬ (0x0002 % 4 = 0) ∧ ¬ (0x4000 < 0x4000) := by decide

theorem witness_ReadsHaveNoSideEffect : 0x3FFC % 4 = 0 ∧ 0x3FFC < 0x4000 ∧ v1.regs.status.busy = false := by decide

/-- The registers a write does not reach, and a launch with the lowest RSVD bit set. -/
theorem witness_ReservedSpaceReadsZeroAndIgnoresWrites :
    (Reg.status.wellFormed = true ∧ Reg.status ∉ [Reg.ctrl, .irqen, .dlen, .glen, .tidx] ∧
      ∀ w, Reg.status ≠ .gbuf w ∧ Reg.status ≠ .dbuf w) ∧
    (Inv v1 ∧ v1.regs.status.busy = false ∧ v1.eng.phase = .idle) ∧
    (0x80000008#32).getLsbD 31 = true ∧ (0x80000008#32).extractLsb' 3 28 ≠ 0 :=
  ⟨⟨rfl, by decide, fun _ => ⟨by simp, by simp⟩⟩, ⟨inv_ready _ _ _ _, by decide, by decide⟩, by decide, by decide⟩

theorem witness_CtrlReadsBackTheLastLaunch : ∃ t, memWrite 4 (regOffset .ctrl) 0x80000005 v1 = .next t := ⟨_, rfl⟩

/-- A state with a record to show, for every clause of the statement: shown, past the last, and running. -/
theorem witness_TraceHeaderShowsTheSelectedRecord :
    (Inv v1 ∧ v1.regs.status.busy = false ∧ v1.regs.tcount.toNat ≤ v1.regs.tidx.toNat) ∧
    (Inv sweeping ∧ sweeping.regs.status.busy = true) ∧
    ∃ s, Inv s ∧ s.regs.status.busy = false ∧ s.regs.tidx.toNat < s.regs.tcount.toNat := by
  refine ⟨⟨inv_ready _ _ _ _, by decide, by decide⟩, ⟨inv_sweeping, by decide⟩, ?_⟩
  -- D = "1" by G = "1": one window, one finish step
  have h : Inv (accept .divide true (noteLaunch (commandLow .divide true) (ready 1 1 0x80000000 0x80000000))) :=
    inv_accept _ _ _ ⟨by decide, by decide, by decide, by decide, fun _ => by decide, by decide⟩ (inv_ready _ _ _ _)
  exact ⟨_, inv_engineFinishStep _ (by decide) (inv_engineWindowStep _ (by decide) (by decide) h), by decide, by decide⟩

theorem witness_InterruptFollowsCompletion : (finishing .encode).eng.phase = .sweep ∧
    (finishing .encode).eng.lw < (finishing .encode).eng.i + (finishing .encode).eng.nL ∧
    v1.eng.phase = .idle ∧ ∀ op, LegalOperands op v1 := ⟨by decide, by decide, by decide, legal_v1⟩

theorem witness_OnlyBadAccessesStop :
    (∃ r, step { v1 with host := { v1.host with prog := [.readSized 1 0x0005] } } = .refused r) ∧
    ∀ op ∈ [HostOp.rd 0x3FFC, .copyXd], op.wellFormed = true := ⟨⟨_, rfl⟩, by decide⟩

/-- One state for each statement form; the register read is one that is no draw. -/
theorem witness_HostStatementsActAsTheirAccesses :
    let s : State := { v1 with turns := [.host, .host], host := { v1.host with prog := hostFlip (.dbuf 0) 0x80000000 ++ [] } }
    Reg.wellFormed (.dbuf 0) = true ∧ s.regs.status.busy = false ∧ s.turns = .host :: .host :: [] ∧
    { s with host := { s.host with prog := [.rd 0x1000] } }.host.prog = .rd (regOffset (.dbuf 0)) :: [] ∧
    { s with host := { s.host with prog := [.rd 0x1000, .wrT 0x000C] } }.host.prog = hostMov .dlen (.dbuf 0) ++ [] ∧
    { s with host := { s.host with prog := [.poll 0x0004 2 2] } }.host.prog = .poll (regOffset .status) 2 2 :: [] ∧
    { s with host := { s.host with prog := [.rdEq 0x0004 0] } }.host.prog = .rdEq (regOffset .status) 0 :: [] := by decide

/-- A host about to write IRQEN (30_encoding.md R93, WR). -/
theorem witness_HostStatementsActAsTheirAccesses_wr :
    let s : State := { v1 with turns := [.host], host := { v1.host with prog := [.wr 0x0008 1] } }
    s.turns = .host :: [] ∧ s.host.prog = .wr (regOffset .irqen) 1 :: [] := by decide

/-- The last word of each buffer, and both ends of each reserved range of 20_memory.md R60. -/
theorem witness_RegisterMapIsTheTable : 31 < 32 ∧ 1023 < 1024 ∧
    ∀ off ∈ [0x0030, 0x00FF, 0x0300, 0x0FFF, 0x3000, 0x3FFF],
      0x0030 ≤ off ∧ off ≤ 0x00FF ∨ 0x0300 ≤ off ∧ off ≤ 0x0FFF ∨ 0x3000 ≤ off ∧ off ≤ 0x3FFF := by decide

/-- An idle host about to copy the frame, and a host that polls a running command. -/
theorem witness_StepsKeepHostProgramsWellFormed :
    let s : State := { v1 with turns := [.host], host := { v1.host with prog := [.copyXd, .rd 0x3FFC] } }
    let u : State := { sweeping with turns := [.host], host := { sweeping.host with prog := hostWaitDone } }
    (Inv s ∧ (∀ op ∈ s.host.prog, op.wellFormed = true) ∧ s.regs.status.busy = false ∧ ∃ t, step s = .next t) ∧
    (Inv u ∧ (∀ op ∈ u.host.prog, op.wellFormed = true) ∧ u.host.prog.head? ≠ some .copyXd ∧ ∃ t, step u = .next t) :=
  ⟨⟨inv_congr v1 _ rfl rfl rfl rfl (inv_ready _ _ _ _), by decide, by decide, _, rfl⟩,
    ⟨inv_congr sweeping _ rfl rfl rfl rfl inv_sweeping, by decide, by decide, _, rfl⟩⟩

theorem witness_LoadLeavesTheStringAsOperand :
    let s : State := { v1 with
      turns := [.host, .host, .engine]
      host := { v1.host with prog := [.wr 0x0010 4, .wr 0x0100 0xB0000000] } }
    s.cfg.legal = true ∧ s.turns = List.replicate (1 + wordsFor 4) .host ++ [.engine] ∧ 4 ≤ s.cfg.nmax ∧
    s.host.prog = hostLoadG [true, false, true, true] ++ [] := by decide

theorem witness_LoadOfData :
    let s : State := { v1 with
      turns := [.host, .host], host := { v1.host with prog := [.wr 0x000C 4, .wr 0x1000 0xD0000000] } }
    s.turns = List.replicate (1 + wordsFor 4) .host ++ [] ∧ 4 ≤ s.cfg.lmax ∧
    s.host.prog = hostLoadD [true, true, false, true] ++ [] := by decide

theorem witness_CopyXdMovesTheFrame :
    let s : State := { finished with
      turns := [.host, .host, .host, .host], host := { finished.host with prog := [.copyXd] } }
    s.cfg.legal = true ∧ s.regs.status.busy = false ∧ s.regs.xlen.toNat ≤ s.cfg.lmax ∧
    s.turns = List.replicate (2 + 2 * wordsFor s.regs.xlen.toNat) .host ++ [] ∧ s.host.prog = .copyXd :: [] := by decide

end Sys2Proof.Tests
end

section
/-! What a register write leaves alone besides the host agent, and that no step changes the parameters. -/

namespace Sys2Proof.Machine

theorem launch_keeps_surroundings (low : BitVec 3) (cmd : Option (Op × Bool)) (s t : State)
    (h : launch low cmd s = .next t) : SurroundingsKept s t := by
  rcases launch_cases low cmd s with ⟨-, hdropped⟩ | ⟨-, e, -, herror⟩ | ⟨-, op, tr, -, -, haccepted⟩
  · rw [hdropped] at h; cases h; simp [SurroundingsKept]
  · rw [herror] at h; cases h; simp [SurroundingsKept]
  · rw [haccepted] at h; cases h; simp [SurroundingsKept]

theorem exec_keeps_surroundings (i : Instr) (s t : State) (h : exec i s = .next t) : SurroundingsKept s t := by
  rcases exec_cases i s with hnop | ⟨low, cmd, hlaunch, -⟩
  · rw [hnop] at h; cases h; simp [SurroundingsKept]
  · exact launch_keeps_surroundings low cmd s t (hlaunch ▸ h)

/-- A register write reaches registers, storage and engine only (20_memory.md R65). -/
theorem writeReg_keeps_surroundings (r : Reg) (v : Word) (s t : State) (h : writeReg r v s = .next t) :
    SurroundingsKept s t := by
  rcases writeReg_cases r v s with ⟨-, hctrl⟩ | ⟨regs, hregs, -⟩ | ⟨w, -, hgbuf⟩ | ⟨w, -, hdbuf⟩
  · exact exec_keeps_surroundings (decodeWord v) s t (hctrl ▸ h)
  · rw [hregs] at h; cases h; simp [SurroundingsKept]
  · rw [hgbuf] at h; cases h; simp [SurroundingsKept]
  · rw [hdbuf] at h; cases h; simp [SurroundingsKept]

/-- Settles O36, by the four things a step can be: an engine step, a reset, a register write of the host, or a statement
that touches only the host agent and the draw counter. -/
theorem stepsKeepTheParameters : Obligations.StepsKeepTheParameters := by
  intro s t h
  obtain ⟨rest, rfl | rfl | ⟨hst, off, v, hwrite⟩ | ⟨draws, hst, rfl⟩⟩ := step_cases s t h
  · exact (engineStep_frame _).1
  · exact resetBlock_cfg _
  · obtain ⟨hcfg, -⟩ := writeReg_keeps_surroundings _ _ _ _ hwrite
    exact hcfg
  · rfl

end Sys2Proof.Machine
end

section
/-! The invariant of 10_state.md R54: it holds right after reset, and every step keeps it. -/

namespace Sys2Proof.Machine

/-- Settles O31: a reset leaves the invariant true, and the first reset differs from any other only in its number. -/
theorem invariantHoldsAtReset : Obligations.InvariantHoldsAtReset := by
  have hreset : ∀ p : Params, p.legal = true → Inv (State.resetWith p) := fun p hp =>
    inv_congr (resetBlock (State.resetWith p)) _ rfl rfl rfl rfl (inv_resetBlock _ hp)
  exact ⟨hreset Params.reference (by decide), hreset⟩

/-- A launch keeps the invariant when LASTCMD takes the bits of the command it latches. -/
theorem inv_launch (low : BitVec 3) (cmd : Option (Op × Bool)) (s t : State)
    (hlow : ∀ op tr, cmd = some (op, tr) → low = commandLow op tr) (hs : Inv s) (h : launch low cmd s = .next t) :
    Inv t := by
  rcases launch_cases low cmd s with ⟨-, hdropped⟩ | ⟨hidle, e, hcode, herror⟩ | ⟨-, op, tr, hcmd, hlegal, haccepted⟩
  · rw [hdropped] at h; cases h
    exact inv_dropLaunch s hs
  · rw [herror] at h; cases h
    exact inv_errorCompletion e low s hidle hcode hs
  · rw [haccepted, hlow op tr hcmd] at h; cases h
    exact inv_accept op tr s hlegal hs

theorem inv_exec (i : Instr) (s t : State) (hs : Inv s) (h : exec i s = .next t) : Inv t := by
  rcases exec_cases i s with hnop | ⟨low, cmd, hlaunch, hlow⟩
  · rw [hnop] at h; cases h
    exact hs
  · exact inv_launch low cmd s t hlow hs (hlaunch ▸ h)

/-- Every register write of the host keeps the invariant (20_memory.md R65). -/
theorem inv_writeReg (r : Reg) (v : Word) (s t : State) (hs : Inv s) (h : writeReg r v s = .next t) : Inv t := by
  rcases writeReg_cases r v s with ⟨-, hctrl⟩ | ⟨regs, hregs, hwhich⟩ | ⟨w, -, hgbuf⟩ | ⟨w, -, hdbuf⟩
  · exact inv_exec (decodeWord v) s t hs (hctrl ▸ h)
  · rw [hregs] at h; cases h
    rcases hwhich with rfl | rfl | rfl | rfl | rfl <;>
      exact inv_host_registers s _ rfl rfl rfl rfl rfl rfl rfl rfl hs
  · rw [hgbuf] at h; cases h
    exact inv_writeGbufWord w v s hs
  · rw [hdbuf] at h; cases h
    exact inv_writeDbufWord w v s hs

theorem inv_engineStep (s : State) (hs : Inv s) : Inv (engineStep s) := by
  rcases engineStep_cases s with ⟨-, hidle⟩ | ⟨hsweep, hleft, hwindow⟩ | ⟨hsweep, -, hfinish⟩
  · rw [hidle]; exact hs
  · rw [hwindow]; exact inv_engineWindowStep s hsweep hleft hs
  · rw [hfinish]; exact inv_engineFinishStep s hsweep hs

/-- Settles O32, by the four things a step can be: an engine step, a reset, a register write of the host, or a statement
that touches only the host agent and the draw counter, which the invariant does not read. -/
theorem everyStepKeepsTheInvariant : Obligations.EveryStepKeepsTheInvariant := by
  intro s t hs h
  obtain ⟨rest, rfl | rfl | ⟨hst, off, v, hwrite⟩ | ⟨draws, hst, rfl⟩⟩ := step_cases s t h
  · exact inv_engineStep _ (inv_congr s _ rfl rfl rfl rfl hs)
  · exact inv_resetBlock _ hs.params
  · exact inv_writeReg (regAt off) v { s with turns := rest, host := hst } t (inv_congr s _ rfl rfl rfl rfl hs) hwrite
  · exact inv_congr s _ rfl rfl rfl rfl hs

end Sys2Proof.Machine
end

section
/-! A running command and the host: what the engine reads of the state, the host cannot write while it sweeps (10_state.md
R49; 70_reset_and_hazards.md R199). -/

namespace Sys2Proof.Machine

/-- The state with everything erased that the host may write while a command runs: the operands, IRQEN, TIDX and DROPPED,
the host agent, the schedule and the draw counter. -/
def withoutHost (s : State) : State :=
  { s with
    regs := { s.regs with
      status := { s.regs.status with dropped := false }, irqEn := false, dlen := 0, glen := 0, tidx := 0 }
    mem := { s.mem with dbuf := [], gbuf := [] }
    host := HostAgent.reset
    turns := []
    draws := 0 }

theorem withoutHost_commit (rem : Bits) (s : State) : withoutHost (commit rem s) = commit rem (withoutHost s) := by
  cases hop : s.eng.opL with
  | divide => rw [commit_divide rem s hop, commit_divide rem (withoutHost s) hop]; rfl
  | encode => rw [commit_encode rem s hop, commit_encode rem (withoutHost s) hop]; rfl
  | verify => rw [commit_verify rem s hop, commit_verify rem (withoutHost s) hop]; rfl

theorem withoutHost_engineWindowStep (s : State) :
    withoutHost (engineWindowStep s) = engineWindowStep (withoutHost s) := by
  cases htr : s.eng.trL <;> simp [engineWindowStep, withoutHost, htr]

theorem withoutHost_engineFinishStep (s : State) :
    withoutHost (engineFinishStep s) = engineFinishStep (withoutHost s) := by
  simp only [engineFinishStep]
  rw [show (withoutHost s).eng = s.eng from rfl, ← withoutHost_commit]
  rfl

/-- The engine's step neither reads nor writes what the host may write. -/
theorem withoutHost_engineStep (s : State) : withoutHost (engineStep s) = engineStep (withoutHost s) := by
  rcases engineStep_cases s with ⟨hidle, h⟩ | ⟨hsweep, hleft, h⟩ | ⟨hsweep, hover, h⟩ <;> rw [h]
  · rw [engineStep_idle (withoutHost s) hidle]
  · rw [engineStep_window (withoutHost s) hsweep hleft, withoutHost_engineWindowStep]
  · rw [engineStep_finish (withoutHost s) hsweep hover, withoutHost_engineFinishStep]

theorem withoutHost_engineStep_congr {s t : State} (h : withoutHost s = withoutHost t) :
    withoutHost (engineStep s) = withoutHost (engineStep t) := by
  rw [withoutHost_engineStep, withoutHost_engineStep, h]

theorem withoutHost_engineSteps_congr (k : Nat) {s t : State} (h : withoutHost s = withoutHost t) :
    withoutHost (engineSteps k s) = withoutHost (engineSteps k t) := by
  induction k generalizing s t with
  | zero => exact h
  | succ k ih => exact ih (withoutHost_engineStep_congr h)

theorem eng_eq_of_withoutHost_eq {s t : State} (h : withoutHost s = withoutHost t) : s.eng = t.eng :=
  (congrArg State.eng h :)

/-- In SWEEP a command word can only be dropped (60_exceptions.md R168). -/
theorem exec_withoutHost (i : Instr) (s t : State) (hsweep : s.eng.phase = .sweep) (h : exec i s = .next t) :
    withoutHost t = withoutHost s := by
  rcases exec_cases i s with hnop | ⟨low, cmd, hlaunch, -⟩
  · rw [hnop] at h; cases h; rfl
  · rw [hlaunch, launch_sweep low cmd s hsweep] at h; cases h; rfl

theorem writeReg_withoutHost (r : Reg) (v : Word) (s t : State) (hsweep : s.eng.phase = .sweep)
    (h : writeReg r v s = .next t) : withoutHost t = withoutHost s := by
  rcases writeReg_cases r v s with ⟨-, hctrl⟩ | ⟨regs, hregs, hwhich⟩ | ⟨w, -, hgbuf⟩ | ⟨w, -, hdbuf⟩
  · exact exec_withoutHost (decodeWord v) s t hsweep (hctrl ▸ h)
  · rw [hregs] at h; cases h
    rcases hwhich with rfl | rfl | rfl | rfl | rfl <;> rfl
  · rw [hgbuf] at h; cases h; rfl
  · rw [hdbuf] at h; cases h; rfl

/-- A host step while a command runs changes only what the host may write, and leaves the schedule (20_memory.md R68). -/
theorem hostStep_withoutHost (s t : State) (hsweep : s.eng.phase = .sweep) (h : hostStep s = .next t) :
    withoutHost t = withoutHost s ∧ t.turns = s.turns := by
  rcases hostStep_cases s t h with ⟨hst, off, v, hwrite⟩ | ⟨draws, hst, rfl⟩
  · obtain ⟨-, -, hturns, -⟩ := writeReg_keeps_surroundings _ _ _ _ hwrite
    exact ⟨writeReg_withoutHost (regAt off) v { s with host := hst } t hsweep hwrite, hturns⟩
  · exact ⟨rfl, rfl⟩

/-- A step that is no reset, while a command runs, is an engine step or none, but for what the host may write. -/
theorem step_withoutHost (turn : Turn) (rest : List Turn) (s t : State) (hturns : s.turns = turn :: rest)
    (hreset : turn ≠ .reset) (hsweep : s.eng.phase = .sweep) (h : step s = .next t) :
    withoutHost t = withoutHost (engineSteps ([turn].count .engine) s) ∧ t.turns = rest := by
  rw [step_turn s turn rest hturns] at h
  cases turn with
  | reset => exact absurd rfl hreset
  | host => exact hostStep_withoutHost { s with turns := rest } t hsweep h
  | engine =>
    cases h
    exact ⟨withoutHost_engineStep_congr rfl, (engineStep_frame _).2.2.1⟩

theorem engineSteps_add (a b : Nat) (s : State) : engineSteps (a + b) s = engineSteps b (engineSteps a s) := by
  induction a generalizing s with
  | zero => rw [Nat.zero_add]; rfl
  | succ a ih => rw [Nat.succ_add]; exact ih (engineStep s)

theorem run_succ_next (M : Host.Core) (k : Nat) (s u : M.State) (h : M.run (k + 1) s = .next u) :
    ∃ t, M.step s = .next t ∧ M.run k t = .next u := by
  rw [Host.Core.run] at h
  cases hstep : M.step s with
  | next t => rw [hstep] at h; exact ⟨t, rfl, h⟩
  | fault r => rw [hstep] at h; cases h
  | refused r => rw [hstep] at h; cases h

/-- A run without a reset, as long as the engine alone would still sweep, is the engine's own run but for what the host may
write. -/
theorem run_withoutHost (ts rest : List Turn) (s u : State) (hturns : s.turns = ts ++ rest)
    (hreset : ∀ t ∈ ts, t ≠ .reset)
    (hsweep : ∀ j, j ≤ ts.count .engine → (engineSteps j s).eng.phase = .sweep)
    (hrun : Host.Core.run core ts.length s = .next u) :
    withoutHost u = withoutHost (engineSteps (ts.count .engine) s) := by
  induction ts generalizing s with
  | nil => cases hrun; rfl
  | cons turn ts ih =>
    obtain ⟨hturn, hreset⟩ := List.forall_mem_cons.1 hreset
    rw [← List.singleton_append, List.count_append] at hsweep ⊢
    obtain ⟨t, hstep, hrest⟩ : ∃ t : State, step s = .next t ∧ Host.Core.run core ts.length t = .next u :=
      run_succ_next core ts.length s u hrun
    obtain ⟨hsame, ht⟩ := step_withoutHost turn (ts ++ rest) s t hturns hturn (hsweep 0 (Nat.zero_le _)) hstep
    have hsteps : ∀ j, withoutHost (engineSteps j t) = withoutHost (engineSteps ([turn].count .engine + j) s) :=
      fun j => by rw [engineSteps_add]; exact withoutHost_engineSteps_congr j hsame
    have hsweep' : ∀ j, j ≤ ts.count .engine → (engineSteps j t).eng.phase = .sweep := fun j hj => by
      rw [eng_eq_of_withoutHost_eq (hsteps j)]; exact hsweep _ (Nat.add_le_add_left hj _)
    rw [ih t ht hreset hsweep' hrest, hsteps]

/-- Settles O30: the run leaves the engine's own state but for what the host may write (`run_withoutHost`), and the next
engine step commits from that state alone. -/
theorem hostNeverChangesARunningCommand : Obligations.HostNeverChangesARunningCommand := by
  intro s u ts rest hreset hsweep hrun a
  have hsteps : ∀ j, withoutHost (engineSteps j { s with turns := ts ++ rest }) = withoutHost (engineSteps j s) :=
    fun j => withoutHost_engineSteps_congr j rfl
  have hsweep' : ∀ j, j ≤ ts.count .engine → (engineSteps j { s with turns := ts ++ rest }).eng.phase = .sweep :=
    fun j hj => by rw [eng_eq_of_withoutHost_eq (hsteps j)]; exact hsweep j hj
  have hsame : withoutHost u = withoutHost a :=
    (run_withoutHost ts rest _ u rfl hreset hsweep' hrun).trans (hsteps _)
  have hcommit : withoutHost (engineStep u) = withoutHost (engineStep a) := withoutHost_engineStep_congr hsame
  exact ⟨eng_eq_of_withoutHost_eq hsame, (congrArg (·.regs.rlen) hcommit :), (congrArg (·.regs.xlen) hcommit :),
    (congrArg (·.regs.tcount) hcommit :), (congrArg (·.regs.status) hcommit :),
    fun j => ⟨(congrArg (rbufBit · j) hcommit :), (congrArg (xbufBit · j) hcommit :),
      (congrArg (traceRecord · j) hcommit :)⟩⟩

end Sys2Proof.Machine
end

section
/-! The registers of 10_state.md section 3 through the window: an access by name, a CTRL write by its START bit, and what
each register reads. -/

namespace Sys2Proof.Machine

/-! ## An access of a named register -/

theorem memWrite_regOffset (r : Reg) (v : Word) (s : State) (h : r.wellFormed = true) :
    memWrite 4 (regOffset r) v s = writeReg r v s := by
  rw [memWrite_admitted 4 _ v s (regOffset_admitted r h), regAt_regOffset r h]

/-- A read by name, when it is no draw (20_memory.md R64, R71). -/
theorem memRead_regOffset (r : Reg) (s : State) (h : r.wellFormed = true)
    (hdefined : s.regs.status.busy = false ∨ drawnWhileBusy r = false) :
    memRead 4 (regOffset r) s = .next (regValue s r, s) := by
  rw [memRead_admitted 4 _ s (regOffset_admitted r h), regAt_regOffset r h, readReg_defined r s hdefined]

/-- Settles O47: a write by name stores the word, and a read of these registers is never a draw. -/
theorem lengthAndIndexRegistersHoldWholeWords : Obligations.LengthAndIndexRegistersHoldWholeWords := by
  intro r hr s v
  simp only [List.mem_cons, List.not_mem_nil, or_false] at hr
  rcases hr with rfl | rfl | rfl
  all_goals
    refine ⟨_, memWrite_regOffset _ v s rfl, ?_⟩
    exact memRead_regOffset _ _ rfl (.inr rfl)

/-! ## IRQEN and the capability registers -/

/-- Settles O46: IRQEN stores bit 0 of the word, which is its conjunction with 1. -/
theorem irqenHoldsBitZeroAlone : Obligations.IrqenHoldsBitZeroAlone := by
  refine ⟨fun s v => ⟨_, memWrite_regOffset .irqen v s rfl, ?_⟩, fun p => ?_⟩
  · have hbit : v &&& 1 = (BitVec.ofBool (v.getLsbD 0)).setWidth 32 := BitVec.and_one_eq_setWidth_ofBool_getLsbD
    rw [memRead_regOffset .irqen _ rfl (.inr rfl), hbit]
    rfl
  · exact memRead_regOffset .irqen _ rfl (.inr rfl)

theorem regValue_capLmax_toNat (s : State) (h : s.cfg.legal = true) : (regValue s .capLmax).toNat = s.cfg.lmax := by
  obtain ⟨-, hlmax, -, -⟩ := (params_legal_iff s.cfg).1 h
  exact toNat_ofNat_length _ hlmax

theorem regValue_capNmax_toNat (s : State) (h : s.cfg.legal = true) : (regValue s .capNmax).toNat = s.cfg.nmax := by
  obtain ⟨-, -, -, hnmax⟩ := (params_legal_iff s.cfg).1 h
  exact toNat_ofNat_length _ (by omega)

/-- Settles O45: both read a legal parameter, which fits the word, and the map gives a write of them no effect. -/
theorem capRegistersReadTheParameters : Obligations.CapRegistersReadTheParameters := by
  intro s v hlegal
  exact ⟨⟨_, memRead_regOffset .capLmax s rfl (.inr rfl), regValue_capLmax_toNat s hlegal⟩,
    ⟨_, memRead_regOffset .capNmax s rfl (.inr rfl), regValue_capNmax_toNat s hlegal⟩,
    memWrite_regOffset .capLmax v s rfl, memWrite_regOffset .capNmax v s rfl⟩

/-! ## CTRL -/

theorem exec_decodeWord_of_not_start (v : Word) (s : State) (h : v.getLsbD 31 = false) :
    exec (decodeWord v) s = .next s := by
  have hnop : decodeWord v = .nop (v.extractLsb' 0 31) := if_pos h
  rw [hnop]; rfl

/-- The low three bits of a command word: T above OP (30_encoding.md R80). -/
theorem fieldT_append_fieldOp (v : Word) : fieldT v ++ fieldOp v = v.extractLsb' 0 3 :=
  BitVec.extractLsb'_append_extractLsb'_eq_extractLsb' rfl

/-- A CTRL write with START = 1 is a launch with `v[2:0]` as LASTCMD (30_encoding.md R81). -/
theorem exec_decodeWord_of_start (v : Word) (s : State) (h : v.getLsbD 31 = true) :
    ∃ cmd, exec (decodeWord v) s = launch (v.extractLsb' 0 3) cmd s := by
  have hstart : ¬ fieldStart v = false := by simp [fieldStart, h]
  have hop : ∀ o : BitVec 2, o ≠ 3 → o ≠ 0 → o ≠ 1 → o = 2 := by decide
  have htrace (ht : ¬ fieldT v = 0) : fieldT v = 1 := (BitVec.eq_zero_or_eq_one _).resolve_left ht
  rw [← fieldT_append_fieldOp, decodeWord, if_neg hstart]
  split_ifs with hrsvd h3 h0 ht h1 ht ht
  · exact ⟨none, rfl⟩
  · exact ⟨none, rfl⟩
  · exact ⟨some (.divide, false), by rw [ht, h0]; rfl⟩
  · exact ⟨some (.divide, true), by rw [htrace ht, h0]; rfl⟩
  · exact ⟨some (.encode, false), by rw [ht, h1]; rfl⟩
  · exact ⟨some (.encode, true), by rw [htrace ht, h1]; rfl⟩
  · exact ⟨some (.verify, false), by rw [ht, hop _ h3 h0 h1]; rfl⟩
  · exact ⟨some (.verify, true), by rw [htrace ht, hop _ h3 h0 h1]; rfl⟩

theorem launch_lastCmd (low : BitVec 3) (cmd : Option (Op × Bool)) (s t : State) (h : launch low cmd s = .next t) :
    t.regs.lastCmd = if s.eng.phase = .idle then low else s.regs.lastCmd := by
  rcases launch_cases low cmd s with ⟨hphase, hdropped⟩ | ⟨hphase, e, -, herror⟩ | ⟨hphase, op, tr, -, -, haccepted⟩
  · rw [hdropped] at h; cases h; simp [hphase]
  · rw [herror] at h; cases h; simp [hphase]
  · rw [haccepted] at h; cases h; simp [hphase]

/-- Settles O6: NOP is exec's arm without an effect, and START = 0 decodes to it. -/
theorem nopHasNoEffect : Obligations.NopHasNoEffect :=
  ⟨fun _ _ => rfl, fun v s h => (memWrite_regOffset .ctrl v s rfl).trans (exec_decodeWord_of_not_start v s h)⟩

/-- Settles O48, by the START bit: without it the write is a NOP, with it a launch, and a launch writes LASTCMD in IDLE
alone. -/
theorem ctrlReadsBackTheLastLaunch : Obligations.CtrlReadsBackTheLastLaunch := by
  intro v s t h
  replace h : exec (decodeWord v) s = .next t := (memWrite_regOffset .ctrl v s rfl).symm.trans h
  have hread : memRead 4 (regOffset .ctrl) t = .next (t.regs.lastCmd.setWidth 32, t) :=
    memRead_regOffset .ctrl t rfl (.inr rfl)
  rw [hread]
  cases hstart : v.getLsbD 31 with
  | false =>
    rw [exec_decodeWord_of_not_start v s hstart] at h; cases h
    simp
  | true =>
    obtain ⟨cmd, hlaunch⟩ := exec_decodeWord_of_start v s hstart
    rw [launch_lastCmd _ cmd s t (hlaunch ▸ h)]
    by_cases hidle : s.eng.phase = .idle <;> simp [hidle]

/-! ## STATUS -/

/-- Settles O49: the single bits by `statusWord_getLsbD`, the two fields bit by bit, the codes by their table. -/
theorem statusWordLayout : Obligations.StatusWordLayout := by
  intro st v
  have hbit : ∀ i, v.getLsbD i = _ := statusWord_getLsbD st
  have hcode : v.extractLsb' 4 4 = errCodeBits st.errCode := by
    apply BitVec.eq_of_getLsbD_eq
    intro i hi
    rw [BitVec.getLsbD_extractLsb', hbit]
    simp (disch := omega) [if_neg, if_pos, hi]
  have hrest : v.extractLsb' 11 21 = 0 := by
    apply BitVec.eq_of_getLsbD_eq
    intro i hi
    rw [BitVec.getLsbD_extractLsb', hbit]
    simp (disch := omega) [if_neg]
  have hle : (errCodeBits st.errCode).toNat ≤ 4 := by cases st.errCode <;> decide
  exact ⟨hbit 0, hbit 1, hbit 2, hbit 3, hcode, hbit 8, hbit 9, hbit 10, hrest, hle, rfl, rfl, rfl, rfl, rfl⟩

/-! ## Views of empty results, and the reset values -/

theorem packWord_eq_zero (f : Nat → Bool) (w : Nat) (h : ∀ j, f j = false) : packWord f w = 0 := by
  apply BitVec.eq_of_getLsbD_eq
  intro b hb
  rw [packWord_getLsbD f w b hb, h]
  simp

/-- A result view whose length is 0 reads 0 in every word (20_memory.md R70). -/
theorem regValue_rbuf_of_rlen_zero (s : State) (w : Nat) (h : s.regs.rlen = 0) : regValue s (.rbuf w) = 0 :=
  packWord_eq_zero (fun j => decide (j < s.regs.rlen.toNat) && rbufBit s j) w fun j => by simp [h]

theorem regValue_xbuf_of_xlen_zero (s : State) (w : Nat) (h : s.regs.xlen = 0) : regValue s (.xbuf w) = 0 :=
  packWord_eq_zero (fun j => decide (j < s.regs.xlen.toNat) && xbufBit s j) w fun j => by simp [h]

theorem shownRecord_of_tcount_zero (s : State) (h : s.regs.tcount = 0) : shownRecord s = none :=
  shownRecord_none s (by simp [h])

theorem windowView_of_tcount_zero (s : State) (content : TraceRec → Bits) (w : Nat) (h : s.regs.tcount = 0) :
    windowView s content w = 0 := by
  rw [windowView, shownRecord_of_tcount_zero s h]

/-- Settles O34: the registers hold their reset values, and results of length 0 leave every view 0. -/
theorem resetStateReadsItsResetValues : Obligations.ResetStateReadsItsResetValues := by
  intro p hp s
  refine ⟨?_, regValue_capLmax_toNat s hp, regValue_capNmax_toNat s hp, fun w => ?_, rfl, rfl⟩
  · simp only [List.forall_mem_cons, List.not_mem_nil, false_implies, implies_true, and_true]
    exact ⟨rfl, (by decide : statusWord Status.reset = 0), rfl, rfl, rfl, rfl, rfl, rfl, rfl, rfl⟩
  · exact ⟨regValue_rbuf_of_rlen_zero s w rfl, regValue_xbuf_of_xlen_zero s w rfl,
      windowView_of_tcount_zero s TraceRec.before w rfl, windowView_of_tcount_zero s TraceRec.after w rfl⟩

end Sys2Proof.Machine
end

section
/-! The window of 20_memory.md: which register stands where (R60), which accesses are admitted (R66), and what a read
returns and changes (R64, R71). -/

namespace Sys2Proof.Machine

/-! ## The map -/

/-- The three reserved ranges of 20_memory.md R60. -/
theorem regAt_reserved (off : Nat)
    (h : 0x0030 ≤ off ∧ off < 0x0100 ∨ 0x0300 ≤ off ∧ off < 0x1000 ∨ 0x3000 ≤ off ∧ off < 0x4000) :
    regAt off = .reserved := by
  rcases h with h | h | h <;> simp (disch := omega) only [regAt, if_neg, if_pos]

/-- Settles O56: the control registers and the last words by evaluation, a buffer word by `regAt_regOffset`, and the
reserved ranges by `regAt_reserved`. -/
theorem registerMapIsTheTable : Obligations.RegisterMapIsTheTable := by
  refine ⟨by decide, fun w hw => ?_, fun w hw => ?_, fun off hoff => regAt_reserved off (by omega), by decide⟩
  · exact ⟨⟨regAt_regOffset (.gbuf w) (decide_eq_true hw), rfl⟩, ⟨regAt_regOffset (.rbuf w) (decide_eq_true hw), rfl⟩,
      ⟨regAt_regOffset (.trecBefore w) (decide_eq_true hw), rfl⟩, ⟨regAt_regOffset (.trecAfter w) (decide_eq_true hw), rfl⟩⟩
  · exact ⟨⟨regAt_regOffset (.dbuf w) (decide_eq_true hw), rfl⟩, ⟨regAt_regOffset (.xbuf w) (decide_eq_true hw), rfl⟩⟩

/-! ## Which accesses are admitted, and what a read changes -/

/-- Settles O42: `admittedAccess` decides both accesses, and every register read and register write has a next state. -/
theorem onlyAlignedWordAccessesAreAdmitted : Obligations.OnlyAlignedWordAccessesAreAdmitted := by
  intro width off v s
  rw [← admittedAccess_iff, Bool.not_eq_true]
  constructor
  · intro hadmitted
    rw [memRead_admitted width off s hadmitted, memWrite_admitted width off v s hadmitted]
    exact ⟨⟨_, _, rfl⟩, writeReg_next (regAt off) v s⟩
  · intro hrefused
    exact ⟨memRead_refused width off s hrefused, memWrite_refused width off v s hrefused⟩

/-- Settles O43, by the two things a read can be: a value, which leaves the state, or a draw, which happens only while
BUSY. -/
theorem readsHaveNoSideEffect : Obligations.ReadsHaveNoSideEffect := by
  intro off s haligned hwindow
  rw [memRead_admitted 4 off s ((admittedAccess_iff 4 off).2 ⟨rfl, haligned, hwindow⟩)]
  rcases readReg_cases (regAt off) s with ⟨hvalue, -⟩ | ⟨hdraw, hbusy, -⟩
  · exact ⟨_, s.draws, by rw [hvalue], fun _ => rfl⟩
  · exact ⟨_, s.draws + 1, by rw [hdraw], fun hidle => by simp [hbusy] at hidle⟩

/-- A read by name of a result register while BUSY is the next draw (20_memory.md R71). -/
theorem memRead_regOffset_drawn (r : Reg) (s : State) (h : r.wellFormed = true) (hbusy : s.regs.status.busy = true)
    (hdrawn : drawnWhileBusy r = true) :
    memRead 4 (regOffset r) s = .next (Config.busyDraw s.draws, { s with draws := s.draws + 1 }) := by
  rw [memRead_admitted 4 _ s (regOffset_admitted r h), regAt_regOffset r h, readReg, if_pos (by simp [hbusy, hdrawn])]

/-- Settles O41, register by register: `drawnWhileBusy` tells the results from the rest. -/
theorem busyReadsOfResultsAreFreshDraws : Obligations.BusyReadsOfResultsAreFreshDraws := by
  intro s hbusy
  have hdraw := fun r hr => memRead_regOffset_drawn r s hr hbusy
  have hvalue := fun r hr hdefined => memRead_regOffset r s hr (.inr hdefined)
  refine ⟨?_, fun w hw => ?_, fun w hw => hdraw (.xbuf w) (decide_eq_true hw) rfl, ?_,
    fun w hw => hvalue (.gbuf w) (decide_eq_true hw) rfl, fun w hw => hvalue (.dbuf w) (decide_eq_true hw) rfl⟩
  · simp only [List.forall_mem_cons, List.not_mem_nil, false_implies, implies_true, and_true]
    exact ⟨hdraw .rlen rfl rfl, hdraw .xlen rfl rfl, hdraw .tcount rfl rfl, hdraw .trecHdr rfl rfl⟩
  · simp only [List.forall_mem_cons, List.not_mem_nil, false_implies, implies_true, and_true]
    exact ⟨hdraw (.rbuf w) (decide_eq_true hw) rfl, hdraw (.trecBefore w) (decide_eq_true hw) rfl,
      hdraw (.trecAfter w) (decide_eq_true hw) rfl⟩
  · simp only [List.forall_mem_cons, List.not_mem_nil, false_implies, implies_true, and_true]
    exact ⟨hvalue .ctrl rfl rfl, hvalue .status rfl rfl, hvalue .irqen rfl rfl, hvalue .dlen rfl rfl,
      hvalue .glen rfl rfl, hvalue .tidx rfl rfl, hvalue .capLmax rfl rfl, hvalue .capNmax rfl rfl⟩

end Sys2Proof.Machine
end

section
/-! The words of the buffers, bit by bit: the packing of 20_memory.md R63, what a written word reads back (R62, R65), and
the masks of the result views (R70). -/

namespace Sys2Proof.Machine

/-- Settles O38: a packed word's bit is its string position, and an operand lists the positions in order. -/
theorem bufferWordsArePackedMsbFirst : Obligations.BufferWordsArePackedMsbFirst := by
  refine ⟨fun s w b hb => ?_, fun s j hj => by simp [dividendBits, hj], fun s j hj => by simp [generatorBits, hj]⟩
  rw [show 32 * w + 31 - b = 32 * w + (31 - b) by omega]
  exact ⟨fun hw => ⟨_, memRead_regOffset (.dbuf w) s (decide_eq_true hw) (.inr rfl), regValue_dbuf_bit s w b hb⟩,
    fun hw => ⟨_, memRead_regOffset (.gbuf w) s (decide_eq_true hw) (.inr rfl), regValue_gbuf_bit s w b hb⟩⟩

/-- Bit `b` of a word of DBUF after a write of that word (20_memory.md R62, R65). -/
theorem regValue_dbuf_writeDbufWord (v : Word) (s : State) (w b : Nat) (hb : b < 32) :
    (regValue (writeDbufWord w v s) (.dbuf w)).getLsbD b = (decide (32 * w + 31 - b < s.cfg.lmax) && v.getLsbD b) := by
  have hword : (32 * w + (31 - b)) / 32 = w := by omega
  have hbit : 31 - (32 * w + (31 - b)) % 32 = b := by omega
  rw [regValue_dbuf_bit _ w b hb, dbufBit_writeDbufWord, if_pos hword, hbit, Nat.add_sub_assoc (by omega)]

/-- Bit `b` of a word of GBUF after a write of that word (20_memory.md R62, R65). -/
theorem regValue_gbuf_writeGbufWord (v : Word) (s : State) (w b : Nat) (hb : b < 32) :
    (regValue (writeGbufWord w v s) (.gbuf w)).getLsbD b = (decide (32 * w + 31 - b < s.cfg.nmax) && v.getLsbD b) := by
  have hword : (32 * w + (31 - b)) / 32 = w := by omega
  have hbit : 31 - (32 * w + (31 - b)) % 32 = b := by omega
  rw [regValue_gbuf_bit _ w b hb, gbufBit_writeGbufWord, if_pos hword, hbit, Nat.add_sub_assoc (by omega)]

/-- Settles O39: the write stores the word's bits inside the storage, and the read packs the storage bits again. -/
theorem bufferWordReadsBackItsStoredBits : Obligations.BufferWordReadsBackItsStoredBits := by
  intro v s w
  constructor
  · intro hw
    have hr : (Reg.dbuf w).wellFormed = true := decide_eq_true hw
    exact ⟨_, _, memWrite_regOffset (.dbuf w) v s hr, memRead_regOffset (.dbuf w) _ hr (.inr rfl),
      regValue_dbuf_writeDbufWord v s w⟩
  · intro hw
    have hr : (Reg.gbuf w).wellFormed = true := decide_eq_true hw
    exact ⟨_, _, memWrite_regOffset (.gbuf w) v s hr, memRead_regOffset (.gbuf w) _ hr (.inr rfl),
      regValue_gbuf_writeGbufWord v s w⟩

/-- Bit `b` of a trace window: the selected record's bit below its width, 0 elsewhere and past the last record. -/
theorem windowView_getLsbD (s : State) (content : TraceRec → Bits) (w b : Nat) (hb : b < 32)
    (hwidth : s.regs.tidx.toNat < s.regs.tcount.toNat → (traceRecord s s.regs.tidx.toNat).width ≤ s.cfg.nmax) :
    (windowView s content w).getLsbD b =
      if s.regs.tidx.toNat < s.regs.tcount.toNat ∧ 32 * w + (31 - b) < (traceRecord s s.regs.tidx.toNat).width then
        (content (traceRecord s s.regs.tidx.toNat)).getD (32 * w + (31 - b)) false
      else false := by
  by_cases hshown : s.regs.tidx.toNat < s.regs.tcount.toNat
  · rw [windowView_bit s content w b hb _ (shownRecord_some s hshown)]
    have hfits := hwidth hshown
    by_cases hj : 32 * w + (31 - b) < (traceRecord s s.regs.tidx.toNat).width
    · have hstored : 32 * w + (31 - b) < s.cfg.nmax := by omega
      simp [hshown, hj, hstored]
    · simp [hj]
  · rw [windowView, shownRecord_none s (by omega)]
    simp [hshown]

/-- Settles O40, one clause per view: with BUSY 0 a read is the view's value, whose bits the mask lemmas give. -/
theorem resultViewsAreMaskedByTheirLengths : Obligations.ResultViewsAreMaskedByTheirLengths := by
  intro s w b hidle hb j
  have hj : j = 32 * w + (31 - b) := Nat.add_sub_assoc (by omega) _
  have hread := fun r hr => memRead_regOffset r s hr (.inl hidle)
  rw [hj]
  refine ⟨fun hw => ⟨_, hread (.rbuf w) (decide_eq_true hw), ?_⟩, fun hw => ⟨_, hread (.xbuf w) (decide_eq_true hw), ?_⟩,
    fun hw hwidth => ⟨_, _, hread (.trecBefore w) (decide_eq_true hw), hread (.trecAfter w) (decide_eq_true hw),
      windowView_getLsbD s TraceRec.before w b hb hwidth, windowView_getLsbD s TraceRec.after w b hb hwidth⟩⟩
  · rw [regValue_rbuf_bit s w b hb, Bool.if_false_right]
  · rw [regValue_xbuf_bit s w b hb, Bool.if_false_right]

end Sys2Proof.Machine
end

section
/-! What a write does at each offset (20_memory.md R65), and what reserved space reads and ignores (R61). -/

namespace Sys2Proof.Machine

/-! ## A CTRL write with START = 1 -/

/-- The command of a launch word, and none for an illegal one (30_encoding.md R82 to R85). -/
def launchCommand (v : Word) : Option (Op × Bool) :=
  if fieldRsvd v = 0 then
    (if fieldOp v = 0 then some (.divide, v.getLsbD 2)
     else if fieldOp v = 1 then some (.encode, v.getLsbD 2)
     else if fieldOp v = 2 then some (.verify, v.getLsbD 2) else none)
  else none

theorem fieldT_eq_ofBool (v : Word) : fieldT v = BitVec.ofBool (v.getLsbD 2) := by
  apply BitVec.eq_of_getLsbD_eq
  intro i hi
  have hzero : i = 0 := by omega
  subst hzero
  simp [fieldT]

/-- A CTRL write with START = 1 launches the command of its fields (30_encoding.md R81). -/
theorem exec_decodeWord_eq_launch (v : Word) (s : State) (h : v.getLsbD 31 = true) :
    exec (decodeWord v) s = launch (v.extractLsb' 0 3) (launchCommand v) s := by
  have hstart : ¬ fieldStart v = false := by simp [fieldStart, h]
  have hop : ∀ o : BitVec 2, o = 0 ∨ o = 1 ∨ o = 2 ∨ o = 3 := by decide
  rw [← fieldT_append_fieldOp, decodeWord, if_neg hstart, launchCommand]
  by_cases hrsvd : fieldRsvd v = 0
  · rw [if_neg (not_not_intro hrsvd), if_pos hrsvd, fieldT_eq_ofBool]
    rcases hop (fieldOp v) with ho | ho | ho | ho <;> rw [ho] <;> cases v.getLsbD 2 <;> rfl
  · rw [if_pos hrsvd, if_neg hrsvd]
    rfl

/-! ## Writes that have no effect -/

/-- The registers a host write reaches (20_memory.md R60, R65): CTRL, and those that hold what is written. -/
theorem writeReg_ignored (r : Reg) (v : Word) (s : State) (hregs : r ∉ [Reg.ctrl, .irqen, .dlen, .glen, .tidx])
    (hwords : ∀ w, r ≠ .gbuf w ∧ r ≠ .dbuf w) : writeReg r v s = .next s := by
  cases r
  case ctrl | irqen | dlen | glen | tidx => simp at hregs
  case gbuf w => exact absurd rfl (hwords w).1
  case dbuf w => exact absurd rfl (hwords w).2
  all_goals rfl

/-- An access of a reserved offset reads 0 and writes nothing (20_memory.md R61). -/
theorem access_reserved (off : Nat) (v : Word) (s : State) (haligned : off % 4 = 0)
    (h : 0x0030 ≤ off ∧ off < 0x0100 ∨ 0x0300 ≤ off ∧ off < 0x1000 ∨ 0x3000 ≤ off ∧ off < 0x4000) :
    memRead 4 off s = .next (0, s) ∧ memWrite 4 off v s = .next s := by
  have hadmitted : admittedAccess 4 off = true := (admittedAccess_iff 4 off).2 ⟨rfl, haligned, by omega⟩
  rw [memRead_admitted 4 off s hadmitted, memWrite_admitted 4 off v s hadmitted, regAt_reserved off h,
    readReg_defined .reserved s (.inr rfl)]
  exact ⟨rfl, rfl⟩

/-- Settles O37, offset by offset: CTRL by its START bit, the registers by the map, a buffer word by its bits, and the rest
of the window because a write does not reach it. -/
theorem hostWriteReachesOnlyItsRegister : Obligations.HostWriteReachesOnlyItsRegister := by
  intro v s
  have hwrite := fun r hr => memWrite_regOffset r v s hr
  refine ⟨fun h => (hwrite .ctrl rfl).trans (exec_decodeWord_of_not_start v s h),
    fun h => (hwrite .ctrl rfl).trans (exec_decodeWord_eq_launch v s h),
    hwrite .irqen rfl, hwrite .dlen rfl, hwrite .glen rfl, hwrite .tidx rfl,
    fun w hw => ⟨_, hwrite (.gbuf w) (decide_eq_true hw), rfl, rfl, ⟨rfl, rfl, rfl, rfl, rfl⟩,
      fun j => ⟨gbufBit_writeGbufWord w v s j, rfl, rfl, rfl, rfl⟩⟩,
    fun w hw => ⟨_, hwrite (.dbuf w) (decide_eq_true hw), rfl, rfl, ⟨rfl, rfl, rfl, rfl, rfl⟩,
      fun j => ⟨dbufBit_writeDbufWord w v s j, rfl, rfl, rfl, rfl⟩⟩,
    ?_,
    fun w hw => ⟨hwrite (.rbuf w) (decide_eq_true hw), hwrite (.trecBefore w) (decide_eq_true hw),
      hwrite (.trecAfter w) (decide_eq_true hw)⟩,
    fun w hw => hwrite (.xbuf w) (decide_eq_true hw),
    fun off haligned hreserved => (access_reserved off v s haligned hreserved).2⟩
  simp only [List.forall_mem_cons, List.not_mem_nil, false_implies, implies_true, and_true]
  exact ⟨hwrite .status rfl, hwrite .rlen rfl, hwrite .xlen rfl, hwrite .tcount rfl, hwrite .trecHdr rfl,
    hwrite .capLmax rfl, hwrite .capNmax rfl⟩

/-! ## Reserved bits -/

/-- Each bit of TREC_HDR: XORED on top, WIDTH from bit 16, OFF from bit 0 (30_encoding.md R90). -/
theorem traceHeader_getLsbD (r : TraceRec) (b : Nat) (hb : b < 32) :
    (traceHeader r).getLsbD b =
      (decide (b = 31) && r.xored || decide (16 ≤ b) && r.width.testBit (b - 16) || r.off.testBit b) := by
  have htop : 31 ≤ b ↔ b = 31 := by omega
  have hplaces : b - 31 < 32 ∧ b - 16 < 32 ∧ b - 31 = 0 := by omega
  simp [traceHeader, hb, htop, hplaces, ← decide_not, -BitVec.getLsbD_eq_getElem, BitVec.getLsbD_ofNat]

/-- Bits 30:27 of the header are 0 when the record's fields fit their places. -/
theorem traceHeader_reserved_bits (r : TraceRec) (b : Nat) (hwidth : r.width < 2 ^ 11) (hoff : r.off < 2 ^ 16)
    (hlow : 27 ≤ b) (hhigh : b ≤ 30) : (traceHeader r).getLsbD b = false := by
  have hw : r.width.testBit (b - 16) = false :=
    Nat.testBit_lt_two_pow (hwidth.trans_le (Nat.pow_le_pow_right (by omega) (by omega)))
  have ho : r.off.testBit b = false :=
    Nat.testBit_lt_two_pow (hoff.trans_le (Nat.pow_le_pow_right (by omega) (by omega)))
  have hb : b ≠ 31 := by omega
  rw [traceHeader_getLsbD r b (by omega), hw, ho]
  simp [hb]

/-- In states of the invariant the shown record is small enough for its header. -/
theorem shownRecord_fits (s : State) (r : TraceRec) (hs : Inv s) (h : shownRecord s = some r) :
    r.width < 2 ^ 11 ∧ r.off < 2 ^ 16 := by
  by_cases hshown : s.regs.tidx.toNat < s.regs.tcount.toNat
  · obtain ⟨rec, hcell, hoff, -, hwidth, -⟩ := hs.results.records _ hshown
    obtain ⟨-, hlmax, -, hnmax⟩ := (params_legal_iff s.cfg).1 hs.params
    have hcount : s.regs.tcount.toNat ≤ s.cfg.lmax := hs.results.tcount_le
    have hr : r = rec := by
      rw [shownRecord_some s hshown, traceRecord, hcell] at h
      exact (Option.some.inj h).symm
    subst hr
    omega
  · rw [shownRecord_none s (by omega)] at h
    cases h

theorem regValue_trecHdr_reserved_bits (s : State) (b : Nat) (hs : Inv s) (hlow : 27 ≤ b) (hhigh : b ≤ 30) :
    (regValue s .trecHdr).getLsbD b = false := by
  cases hshown : shownRecord s with
  | none => simp [regValue, hshown]
  | some r =>
    obtain ⟨hwidth, hoff⟩ := shownRecord_fits s r hs hshown
    simpa [regValue, hshown] using traceHeader_reserved_bits r b hwidth hoff hlow hhigh

/-- Settles O44: reserved offsets by the map, ignored writes by register, reserved bits by the layout of each register, and
the launch with a reserved bit by its decoding. -/
theorem reservedSpaceReadsZeroAndIgnoresWrites : Obligations.ReservedSpaceReadsZeroAndIgnoresWrites := by
  refine ⟨access_reserved,
    fun r v s hr hregs hwords => (memWrite_regOffset r v s hr).trans (writeReg_ignored r v s hregs hwords),
    fun s b => ⟨fun hb => ?_, fun hb => ?_, fun hb => ?_⟩, fun s v => ?_,
    fun s b hs _ hlow hhigh => regValue_trecHdr_reserved_bits s b hs hlow hhigh, fun v s hidle hstart hrsvd => ?_⟩
  · simp [regValue, BitVec.getLsbD_of_ge _ _ hb]
  · rw [regValue, statusWord_getLsbD]
    simp (disch := omega) only [if_neg]
  · simp [regValue, BitVec.getLsbD_of_ge _ _ hb]
  · rw [memWrite_regOffset .irqen v s rfl, memWrite_regOffset .irqen (v &&& 1) s rfl]
    simp [writeReg]
  · have hillegal : launchCommand v = none := if_neg hrsvd
    rw [memWrite_regOffset .ctrl v s rfl]
    exact (exec_decodeWord_eq_launch v s hstart).trans (by rw [hillegal, launch_illegal _ s hidle])

end Sys2Proof.Machine
end

section
/-! Steps of the host: the command word a CTRL write runs (20_memory.md R65, R76), the one way a step stops (R66), and what
a host statement leaves of the program (30_encoding.md R93, R94). -/

namespace Sys2Proof.Machine

/-! ## A statement that writes CTRL -/

/-- The host's turn, when its next statement writes a word to CTRL. -/
theorem hostStep_ctrl (s : State) (v : Word) (ops : List HostOp) (h : s.host.prog = .wr 0x0000 v :: ops) :
    hostStep s = exec (decodeWord v) { s with host := { s.host with prog := ops } } := by
  rw [hostStep_cons s _ ops h]
  exact memWrite_regOffset .ctrl v _ rfl

/-- Settles O5: the turn is the host's, by the schedule or because IDLE leaves it no other, and the host runs its CTRL
write. -/
theorem stepRunsTheDecodedCommandWord : Obligations.StepRunsTheDecodedCommandWord := by
  refine ⟨fun s v rest ops hturns hprog => ?_, fun s v ops hturns hidle hprog => ?_, fun s nbits w => ?_⟩
  · rw [step_turn s .host rest hturns]
    exact hostStep_ctrl { s with turns := rest } v ops hprog
  · have hdefault : defaultTurn s = .host := by rw [defaultTurn, hidle]
    rw [step_default s hturns, hdefault]
    exact hostStep_ctrl s v ops hprog
  · rw [step_turn (s.withFetchWord nbits w) .host s.turns rfl]
    exact hostStep_ctrl { s.withFetchWord nbits w with turns := s.turns } _ s.host.prog rfl

/-! ## The one way a step stops -/

/-- `o` goes on when the access behind it is admitted (`ok`), and else is the refusal of an access that is not. -/
def GoesOnIfAdmitted (ok : Bool) (o : Result State) : Prop :=
  (ok = true ∧ ∃ t, o = .next t) ∨
  (ok = false ∧ ∃ width off, admittedAccess width off = false ∧ o = .refused (.badAccess width off))

theorem memWrite_goesOnIfAdmitted (width off : Nat) (v : Word) (s : State) :
    GoesOnIfAdmitted (admittedAccess width off) (memWrite width off v s) := by
  cases h : admittedAccess width off with
  | true => exact .inl ⟨rfl, memWrite_admitted width off v s h ▸ writeReg_next (regAt off) v s⟩
  | false => exact .inr ⟨rfl, width, off, h, memWrite_refused width off v s h⟩

/-- A statement that reads and then goes on with what it read. -/
theorem memRead_goesOnIfAdmitted (width off : Nat) (f : Word × State → State) (s : State) :
    GoesOnIfAdmitted (admittedAccess width off) (onNext (memRead width off s) (fun p => .next (f p))) := by
  cases h : admittedAccess width off with
  | true => exact .inl ⟨rfl, _, by rw [memRead_admitted width off s h]; rfl⟩
  | false => exact .inr ⟨rfl, width, off, h, by rw [memRead_refused width off s h]; rfl⟩

/-- A well-formed statement goes on, and any other is refused for its access. -/
theorem execHostOp_goesOnIfWellFormed (op : HostOp) (s : State) : GoesOnIfAdmitted op.wellFormed (execHostOp op s) := by
  cases op with
  | wr off imm => exact memWrite_goesOnIfAdmitted 4 off imm s
  | wrT off => exact memWrite_goesOnIfAdmitted 4 off s.host.t s
  | wrTXor off mask => exact memWrite_goesOnIfAdmitted 4 off (s.host.t ^^^ mask) s
  | writeSized width off v => exact memWrite_goesOnIfAdmitted width off v s
  | rd off => exact memRead_goesOnIfAdmitted 4 off (fun p => setTemp p.1 p.2) s
  | rdEq off imm => exact memRead_goesOnIfAdmitted 4 off (fun p => noteAssert (p.1 == imm) p.2) s
  | poll off mask val =>
    exact memRead_goesOnIfAdmitted 4 off
      (fun p => if p.1 &&& mask = val then p.2 else pushOps [.poll off mask val] p.2) s
  | copyXd =>
    exact memRead_goesOnIfAdmitted 4 (regOffset .xlen) (fun p => pushOps (copyXdRest p.1) (setTemp p.1 p.2)) s
  | readSized width off => exact memRead_goesOnIfAdmitted width off (fun p => setTemp p.1 p.2) s

/-- A step is a turn of one agent, whether the schedule names it or not. -/
theorem step_eq_takeTurn (s : State) : ∃ turn rest, step s = takeTurn turn { s with turns := rest } := by
  cases h : s.turns with
  | nil => exact ⟨defaultTurn s, s.turns, step_default s h⟩
  | cons turn rest => exact ⟨turn, rest, step_turn s turn rest h⟩

theorem hostStep_next_or_refused (s : State) :
    (∃ t, hostStep s = .next t) ∨
    ∃ op ∈ s.host.prog, op.wellFormed = false ∧
      ∃ width off, admittedAccess width off = false ∧ hostStep s = .refused (.badAccess width off) := by
  cases hprog : s.host.prog with
  | nil => exact .inl ⟨s, by rw [hostStep, hprog]⟩
  | cons op rest =>
    rw [hostStep_cons s op rest hprog]
    rcases execHostOp_goesOnIfWellFormed op { s with host := { s.host with prog := rest } } with ⟨-, hnext⟩ | hrefused
    · exact .inl hnext
    · exact .inr ⟨op, List.mem_cons_self, hrefused⟩

/-- A step goes on, unless it is the host's and the statement's access is not admitted. -/
theorem step_next_or_refused (s : State) :
    (∃ t, step s = .next t) ∨
    ∃ op ∈ s.host.prog, op.wellFormed = false ∧
      ∃ width off, admittedAccess width off = false ∧ step s = .refused (.badAccess width off) := by
  obtain ⟨turn, rest, hstep⟩ := step_eq_takeTurn s
  rw [hstep]
  cases turn with
  | host => exact hostStep_next_or_refused { s with turns := rest }
  | engine => exact .inl ⟨_, rfl⟩
  | reset => exact .inl ⟨_, rfl⟩

/-- Settles O52: a step that does not go on is the refusal of a statement that is not well formed. -/
theorem onlyBadAccessesStop : Obligations.OnlyBadAccessesStop := by
  constructor
  · intro s r hstep
    rcases step_next_or_refused s with ⟨t, hnext⟩ | ⟨op, -, -, width, off, hbad, hrefused⟩
    · rw [hnext] at hstep; cases hstep
    · rw [hrefused] at hstep; cases hstep
      exact ⟨width, off, rfl, by rw [← admittedAccess_iff, hbad]; simp⟩
  · intro s hprog
    rcases step_next_or_refused s with hnext | ⟨op, hop, hill, -⟩
    · exact hnext
    · rw [hprog op hop] at hill; cases hill

/-! ## What a statement leaves of the program -/

theorem readReg_host (r : Reg) (s : State) : (readReg r s).2.host = s.host := by
  obtain ⟨draws, hstate⟩ := readReg_state r s
  rw [hstate]

theorem onNext_memRead_next (width off : Nat) (f : Word × State → State) (s t : State)
    (h : onNext (memRead width off s) (fun p => .next (f p)) = .next t) : t = f (readReg (regAt off) s) := by
  obtain ⟨p, hread, hnext⟩ := onNext_next _ _ _ h
  obtain ⟨-, rfl⟩ := memRead_next _ _ _ _ hread
  cases hnext
  rfl

/-- A statement leaves the rest of the program; POLL may put itself before it, and COPYXD what is left of it. -/
theorem execHostOp_prog (op : HostOp) (s t : State) (h : execHostOp op s = .next t) :
    t.host.prog = s.host.prog ∨ t.host.prog = op :: s.host.prog ∨
    (op = .copyXd ∧ t.host.prog = copyXdRest (readReg .xlen s).1 ++ s.host.prog) := by
  cases op with
  | wr off imm | wrT off | wrTXor off mask | writeSized width off v =>
    exact .inl (congrArg HostAgent.prog (memWrite_host _ _ _ _ _ h))
  | rd off =>
    rw [onNext_memRead_next 4 off (fun p => setTemp p.1 p.2) s t h]
    exact .inl (by simp [readReg_host])
  | rdEq off imm =>
    rw [onNext_memRead_next 4 off (fun p => noteAssert (p.1 == imm) p.2) s t h]
    exact .inl (by simp [readReg_host])
  | readSized width off =>
    rw [onNext_memRead_next width off (fun p => setTemp p.1 p.2) s t h]
    exact .inl (by simp [readReg_host])
  | poll off mask val =>
    rw [onNext_memRead_next 4 off (fun p => if p.1 &&& mask = val then p.2 else pushOps [.poll off mask val] p.2) s t h]
    by_cases hmatch : (readReg (regAt off) s).1 &&& mask = val
    · exact .inl (by simp [hmatch, readReg_host])
    · exact .inr (.inl (by simp [hmatch, readReg_host]))
  | copyXd =>
    rw [onNext_memRead_next 4 (regOffset .xlen) (fun p => pushOps (copyXdRest p.1) (setTemp p.1 p.2)) s t h,
      regAt_regOffset .xlen rfl]
    exact .inr (.inr ⟨rfl, by simp [readReg_host]⟩)

/-- A host step keeps a program of well-formed statements, when a COPYXD at its head reads XLEN itself and no draw. -/
theorem hostStep_keeps_wellFormed (s t : State) (hs : Inv s) (hprog : ∀ op ∈ s.host.prog, op.wellFormed = true)
    (hcopy : s.regs.status.busy = true → s.host.prog.head? ≠ some .copyXd) (h : hostStep s = .next t) :
    ∀ op ∈ t.host.prog, op.wellFormed = true := by
  cases hcons : s.host.prog with
  | nil =>
    rw [hostStep, hcons] at h
    cases h
    exact hprog
  | cons op rest =>
    rw [hostStep_cons s op rest hcons] at h
    rw [hcons] at hprog hcopy
    have hrest : ∀ op ∈ rest, op.wellFormed = true := (List.forall_mem_cons.1 hprog).2
    rcases execHostOp_prog op _ t h with hsame | hagain | ⟨rfl, hexpanded⟩
    · rw [hsame]; exact hrest
    · rw [hagain]; exact hprog
    · have hidle : s.regs.status.busy = false := by
        cases hbusy : s.regs.status.busy with
        | false => rfl
        | true => exact absurd rfl (hcopy hbusy)
      have hxlen : s.regs.xlen.toNat ≤ 32768 := hs.results.xlen_le.trans ((params_legal_iff s.cfg).1 hs.params).2.1
      have hread : ∀ host, readReg .xlen { s with host := host } = (s.regs.xlen, { s with host := host }) :=
        fun _ => readReg_defined .xlen _ (.inl hidle)
      rw [hexpanded, hread]
      exact List.forall_mem_append.2 ⟨copyXdRest_wellFormed s.regs.xlen hxlen, hrest⟩

/-- Settles O57: the engine and a reset leave the program, and a host step keeps it well formed. -/
theorem stepsKeepHostProgramsWellFormed : Obligations.StepsKeepHostProgramsWellFormed := by
  intro s t hs hprog hcopy h
  obtain ⟨turn, rest, hstep⟩ := step_eq_takeTurn s
  rw [hstep] at h
  cases turn with
  | host =>
    exact hostStep_keeps_wellFormed { s with turns := rest } t (inv_congr s _ rfl rfl rfl rfl hs) hprog hcopy h
  | engine =>
    cases h
    rw [(engineStep_frame _).2.1]
    exact hprog
  | reset =>
    cases h
    exact hprog

end Sys2Proof.Machine
end

section
/-! The decoder and the encoder of 30_encoding.md: each undoes the other. -/

namespace Sys2Proof

/-- Settles O1, by evaluating the decoder on the words of the table. -/
theorem commandWordsDecodeAsTheTableSays : Obligations.CommandWordsDecodeAsTheTableSays := by
  unfold Obligations.CommandWordsDecodeAsTheTableSays
  decide

/-! ## A number that stands for a word -/

theorem decode_toNat (v : Word) : decode 32 v.toNat = .ok (decodeWord v) := by
  rw [decode, if_neg (not_not_intro rfl), if_neg (Nat.not_le.2 v.isLt), BitVec.ofNat_toNat, BitVec.setWidth_eq]

theorem decode_notAWord (nbits w : Nat) (h : nbits ≠ 32) : decode nbits w = .error (.notAWord nbits) := if_pos h

theorem decode_tooWide (w : Nat) (h : 2 ^ 32 ≤ w) : decode 32 w = .error (.tooWide w) := by
  rw [decode, if_neg (not_not_intro rfl), if_pos h]

theorem decodeTableWord_of_ok (nbits w : Nat) (i : Instr) (h : decode nbits w = .ok i) :
    decodeTableWord nbits w = some i := by
  rw [decodeTableWord, h]

theorem decodeTableWord_of_error (nbits w : Nat) (e : DecodeError) (h : decode nbits w = .error e) :
    decodeTableWord nbits w = none := by
  rw [decodeTableWord, h]

/-- Settles O4: the decoder looks at the length first and at the size of the number second, and the table form forgets
which of the two it was. -/
theorem patternsThatAreNoWordAreRejected : Obligations.PatternsThatAreNoWordAreRejected :=
  ⟨fun nbits w h => ⟨decode_notAWord nbits w h, decodeTableWord_of_error nbits w _ (decode_notAWord nbits w h)⟩,
    fun w h => ⟨decode_tooWide w h, decodeTableWord_of_error 32 w _ (decode_tooWide w h)⟩⟩

/-! ## Decoding an encoded word -/

/-- Each bit of a NOP's word: bit 31 is START = 0, the rest are the ignored bits (30_encoding.md R94). -/
theorem encodeWord_nop_getLsbD (x : BitVec 31) (i : Nat) : (encodeWord (.nop x)).getLsbD i = x.getLsbD i := by
  have h : (encodeWord (.nop x)).getLsbD i = BitVec.getLsbD (w := 1 + 31) (0#1 ++ x) i := rfl
  rw [h, BitVec.getLsbD_append, BitVec.getLsbD_zero]
  split
  · rfl
  · rw [BitVec.getLsbD_of_ge x i (by omega)]

theorem decodeWord_encodeWord_nop (x : BitVec 31) : decodeWord (encodeWord (.nop x)) = .nop x := by
  have hstart : fieldStart (encodeWord (.nop x)) = false := by
    rw [fieldStart, encodeWord_nop_getLsbD, BitVec.getLsbD_of_ge x 31 (Nat.le_refl 31)]
  have hrest : (encodeWord (.nop x)).extractLsb' 0 31 = x := by
    apply BitVec.eq_of_getLsbD_eq
    intro i hi
    rw [BitVec.getLsbD_extractLsb', encodeWord_nop_getLsbD]
    simp [hi]
  rw [decodeWord, if_pos hstart, hrest]

theorem illegal_wellFormed_iff (rsvd : BitVec 28) (t : BitVec 1) (op : BitVec 2) :
    (Instr.illegal rsvd t op).wellFormed = true ↔ rsvd ≠ 0 ∨ op = 3 := by
  rw [Instr.wellFormed, Bool.or_eq_true, decide_eq_true_eq, decide_eq_true_eq]

/-- The catch-all row: RSVD ≠ 0, or OP = 11 with RSVD = 0 (30_encoding.md R84). -/
theorem decodeWord_encodeWord_illegal (rsvd : BitVec 28) (t : BitVec 1) (op : BitVec 2) (h : rsvd ≠ 0 ∨ op = 3) :
    decodeWord (encodeWord (.illegal rsvd t op)) = .illegal rsvd t op := by
  rw [encodeWord, decodeWord, if_neg (by simp), fieldRsvd_commandWord, fieldT_commandWord, fieldOp_commandWord]
  by_cases hrsvd : rsvd = 0
  · rw [if_neg (not_not_intro hrsvd), if_pos (h.resolve_left (not_not_intro hrsvd))]
  · rw [if_pos hrsvd]

theorem decodeWord_encodeWord (i : Instr) (h : i.wellFormed = true) : decodeWord (encodeWord i) = i := by
  cases i with
  | nop x => exact decodeWord_encodeWord_nop x
  | illegal rsvd t op => exact decodeWord_encodeWord_illegal rsvd t op ((illegal_wellFormed_iff rsvd t op).1 h)
  | divide | divideT | encode | encodeT | verify | verifyT => decide

/-- Settles O2: the word of a well-formed instruction decodes to it, row by row of the table, and the two decoders of a
number agree with the decoder of a word. -/
theorem decodeOfEncodeIsIdentity : Obligations.DecodeOfEncodeIsIdentity := by
  intro i h
  have hdecode : decode 32 (encodeWord i).toNat = .ok i := by rw [decode_toNat, decodeWord_encodeWord i h]
  exact ⟨decodeWord_encodeWord i h, hdecode, decodeTableWord_of_ok 32 _ i hdecode⟩

/-! ## Encoding a decoded word -/

/-- A word with START = 0 is the NOP of its other bits. -/
theorem encodeWord_nop_of_not_start (v : Word) (h : fieldStart v = false) :
    encodeWord (.nop (v.extractLsb' 0 31)) = v := by
  apply BitVec.eq_of_getLsbD_eq
  intro i hi
  rw [encodeWord_nop_getLsbD, BitVec.getLsbD_extractLsb', Nat.zero_add]
  by_cases hlow : i < 31
  · simp [hlow]
  · have htop : i = 31 := by omega
    subst htop
    exact h.symm

/-- A word with START = 1 is the command word of its other fields. -/
theorem commandWord_of_start (v : Word) (h : fieldStart v = true) :
    commandWord 1 (fieldRsvd v) (fieldT v) (fieldOp v) = v := by
  have hfields := commandWord_fields v
  rw [h] at hfields
  exact hfields

/-- Settles O3, along the branches of the decoder: a NOP keeps its 31 bits, and a launch word is rebuilt from its fields. -/
theorem everyWordDecodesAndReencodes : Obligations.EveryWordDecodesAndReencodes := by
  intro v
  by_cases hstart : fieldStart v = false
  · rw [decodeWord, if_pos hstart]
    exact ⟨rfl, encodeWord_nop_of_not_start v hstart⟩
  · have hword : commandWord 1 (fieldRsvd v) (fieldT v) (fieldOp v) = v := commandWord_of_start v (by simpa using hstart)
    have hrow (hrsvd : fieldRsvd v = 0) (t : BitVec 1) (op : BitVec 2) (ht : fieldT v = t) (hop : fieldOp v = op) :
        commandWord 1 0 t op = v := by
      rw [← hrsvd, ← ht, ← hop]; exact hword
    have htwo : ∀ o : BitVec 2, o ≠ 3 → o ≠ 0 → o ≠ 1 → o = 2 := by decide
    have htrace (ht : ¬ fieldT v = 0) : fieldT v = 1 := (BitVec.eq_zero_or_eq_one _).resolve_left ht
    rw [decodeWord, if_neg hstart]
    split_ifs with hrsvd h3 h0 ht h1 ht ht
    · exact ⟨(illegal_wellFormed_iff _ _ _).2 (.inl hrsvd), hword⟩
    · exact ⟨(illegal_wellFormed_iff _ _ _).2 (.inr h3), hword⟩
    all_goals
      refine ⟨rfl, ?_⟩
      replace hrow := hrow (not_not.1 hrsvd)
    · exact hrow 0 0 ht h0
    · exact hrow 1 0 (htrace ht) h0
    · exact hrow 0 1 ht h1
    · exact hrow 1 1 (htrace ht) h1
    · exact hrow 0 2 ht (htwo _ h3 h0 h1)
    · exact hrow 1 2 (htrace ht) (htwo _ h3 h0 h1)

end Sys2Proof
end

section
/-! TREC_HDR (30_encoding.md R90): its fields, and which record it shows. -/

namespace Sys2Proof.Machine

/-- In states of the invariant, record `r` of the trace is the record of offset `r` (10_state.md R46). -/
theorem traceRecord_off (s : State) (r : Nat) (hs : Inv s) (h : r < s.regs.tcount.toNat) : (traceRecord s r).off = r := by
  obtain ⟨rec, hcell, hoff, -⟩ := hs.results.records r h
  rw [traceRecord, hcell]
  exact hoff

/-! The four fields, when WIDTH and OFF fit their places: XORED in bit 31, bits 30:27 zero, WIDTH in 26:16, OFF in 15:0. -/

theorem traceRecord_off_testBit_high (r : TraceRec) (hoff : r.off < 2 ^ 16) (i : Nat) :
    r.off.testBit (16 + i) = false :=
  Nat.testBit_lt_two_pow (hoff.trans_le (Nat.pow_le_pow_right (by omega) (by omega)))

theorem traceHeader_xored (r : TraceRec) (hwidth : r.width < 2 ^ 11) (hoff : r.off < 2 ^ 16) :
    (traceHeader r).getLsbD 31 = r.xored := by
  have hwidthTop : r.width.testBit 15 = false := Nat.testBit_lt_two_pow (hwidth.trans (by decide))
  rw [traceHeader_getLsbD r 31 (by omega), hwidthTop, traceRecord_off_testBit_high r hoff 15]
  simp

theorem traceHeader_reserved (r : TraceRec) (hwidth : r.width < 2 ^ 11) (hoff : r.off < 2 ^ 16) :
    (traceHeader r).extractLsb' 27 4 = 0 := by
  apply BitVec.eq_of_getLsbD_eq
  intro i hi
  rw [BitVec.getLsbD_extractLsb', traceHeader_reserved_bits r (27 + i) hwidth hoff (by omega) (by omega)]
  simp

theorem traceHeader_width (r : TraceRec) (hwidth : r.width < 2 ^ 11) (hoff : r.off < 2 ^ 16) :
    ((traceHeader r).extractLsb' 16 11).toNat = r.width := by
  have hfield : (traceHeader r).extractLsb' 16 11 = BitVec.ofNat 11 r.width := by
    apply BitVec.eq_of_getLsbD_eq
    intro i hi
    have htop : 16 + i ≠ 31 := by omega
    rw [BitVec.getLsbD_extractLsb', traceHeader_getLsbD r (16 + i) (by omega), traceRecord_off_testBit_high r hoff,
      BitVec.getLsbD_ofNat]
    simp [htop]
  rw [hfield, BitVec.toNat_ofNat, Nat.mod_eq_of_lt hwidth]

theorem traceHeader_off (r : TraceRec) (hoff : r.off < 2 ^ 16) : ((traceHeader r).extractLsb' 0 16).toNat = r.off := by
  have hfield : (traceHeader r).extractLsb' 0 16 = BitVec.ofNat 16 r.off := by
    apply BitVec.eq_of_getLsbD_eq
    intro i hi
    have htop : i ≠ 31 := by omega
    have hlow : ¬ 16 ≤ i := by omega
    rw [BitVec.getLsbD_extractLsb', Nat.zero_add, traceHeader_getLsbD r i (by omega), BitVec.getLsbD_ofNat]
    simp [htop, hlow]
  rw [hfield, BitVec.toNat_ofNat, Nat.mod_eq_of_lt hoff]

/-- Settles O50: with BUSY 0 the read is the register's value, which is the header of the selected record or 0; with BUSY 1
it is a draw. -/
theorem traceHeaderShowsTheSelectedRecord : Obligations.TraceHeaderShowsTheSelectedRecord := by
  intro s hs r
  refine ⟨fun hidle hshown => ?_, fun hidle hpast => ?_, fun hbusy => memRead_regOffset_drawn .trecHdr s rfl hbusy rfl⟩
  · have hrecord := shownRecord_some s hshown
    have hvalue : regValue s .trecHdr = traceHeader r := by rw [regValue, hrecord]
    obtain ⟨hwidth, hoff⟩ := shownRecord_fits s r hs hrecord
    exact ⟨_, hvalue ▸ memRead_regOffset .trecHdr s rfl (.inl hidle), traceHeader_xored r hwidth hoff,
      traceHeader_reserved r hwidth hoff, traceHeader_width r hwidth hoff, traceHeader_off r hoff,
      traceRecord_off s _ hs hshown⟩
  · have hvalue : regValue s .trecHdr = 0 := by rw [regValue, shownRecord_none s hpast]
    exact hvalue ▸ memRead_regOffset .trecHdr s rfl (.inl hidle)

end Sys2Proof.Machine
end

section
/-! Single statements of the host (30_encoding.md R93): each acts as its access, on the state without its turn and without
the statement. -/

namespace Sys2Proof.Machine

/-! ## The schedule and the program as parameters -/

/-- `s` with the schedule `turns` and the host program `prog`. -/
def withQueue (turns : List Turn) (prog : List HostOp) (s : State) : State :=
  { s with turns := turns, host := { s.host with prog := prog } }

theorem withQueue_self (s : State) (turns : List Turn) (prog : List HostOp) (hturns : s.turns = turns)
    (hprog : s.host.prog = prog) : withQueue turns prog s = s := by
  subst hturns hprog
  rfl

theorem regValue_withQueue (turns : List Turn) (prog : List HostOp) (s : State) (r : Reg) :
    regValue (withQueue turns prog s) r = regValue s r := by
  cases r <;> rfl

/-! ## One step, and the first step of a run -/

/-- On the host's turn a step runs the next statement. -/
theorem step_hostOp (s : State) (op : HostOp) (ops : List HostOp) (rest : List Turn) (hturns : s.turns = .host :: rest)
    (hprog : s.host.prog = op :: ops) : step s = execHostOp op (withQueue rest ops s) := by
  rw [step_turn s .host rest hturns]
  exact hostStep_cons { s with turns := rest } op ops hprog

theorem run_one (M : Host.Core) (s : M.State) : M.run 1 s = M.step s := by
  rw [Host.Core.run]
  cases M.step s <;> rfl

theorem run_succ_of_step (M : Host.Core) (k : Nat) (s t : M.State) (h : M.step s = .next t) :
    M.run (k + 1) s = M.run k t := by
  rw [Host.Core.run, h]

/-! ## Statements that read -/

/-- The first step of a statement that reads: the value is the register's, unless it is a draw. -/
theorem onNext_memRead_withQueue (r : Reg) (s : State) (f : Word × State → Result State) (ops : List HostOp)
    (rest : List Turn) (hr : r.wellFormed = true) (hdefined : s.regs.status.busy = false ∨ drawnWhileBusy r = false) :
    onNext (memRead 4 (regOffset r) (withQueue rest ops s)) f = f (regValue s r, withQueue rest ops s) := by
  rw [memRead_regOffset r (withQueue rest ops s) hr hdefined, regValue_withQueue]
  rfl

theorem step_rd (s : State) (r : Reg) (ops : List HostOp) (rest : List Turn) (hr : r.wellFormed = true)
    (hdefined : s.regs.status.busy = false ∨ drawnWhileBusy r = false) (hturns : s.turns = .host :: rest)
    (hprog : s.host.prog = .rd (regOffset r) :: ops) :
    step s = .next (setTemp (regValue s r) (withQueue rest ops s)) :=
  (step_hostOp s _ ops rest hturns hprog).trans (onNext_memRead_withQueue r s _ ops rest hr hdefined)

/-- A read and the statement after it, which finds the value in `t`: MOV and FLIP are such pairs. -/
theorem run_rd_then (s : State) (r : Reg) (op : HostOp) (ops : List HostOp) (rest : List Turn) (hr : r.wellFormed = true)
    (hdefined : s.regs.status.busy = false ∨ drawnWhileBusy r = false) (hturns : s.turns = .host :: .host :: rest)
    (hprog : s.host.prog = .rd (regOffset r) :: op :: ops) :
    Host.Core.run core 2 s = execHostOp op (setTemp (regValue s r) (withQueue rest ops s)) := by
  have hread := step_rd s r (op :: ops) (.host :: rest) hr hdefined hturns hprog
  have hop : step (setTemp (regValue s r) (withQueue (.host :: rest) (op :: ops) s)) =
      execHostOp op (setTemp (regValue s r) (withQueue rest ops s)) := step_hostOp _ op ops rest rfl rfl
  exact (run_succ_of_step core 1 s _ hread).trans ((run_one core _).trans hop)

/-- Settles O53, statement by statement: a write is its access, a read finds the register's value, and what the statement
does with that value is what `execHostOp` says. -/
theorem hostStatementsActAsTheirAccesses : Obligations.HostStatementsActAsTheirAccesses := by
  refine ⟨fun s d v ops rest hturns hprog => step_hostOp s _ ops rest hturns hprog, ?_⟩
  intro s r d ops rest hr _ hdefined x
  refine ⟨step_rd s r ops rest hr hdefined, run_rd_then s r (.wrT (regOffset d)) ops rest hr hdefined,
    fun mask => run_rd_then s r (.wrTXor (regOffset r) mask) ops rest hr hdefined,
    fun mask val hturns hprog => ?_, fun imm hturns hprog => ?_⟩
  · rw [step_hostOp s _ ops rest hturns hprog, execHostOp, onNext_memRead_withQueue r s _ ops rest hr hdefined]
    by_cases hmatch : x &&& mask = val
    · rw [if_pos hmatch, if_pos hmatch]
      rfl
    · rw [if_neg hmatch, if_neg hmatch]
      exact congrArg Host.Outcome.next (withQueue_self { s with turns := rest } rest _ rfl hprog)
  · rw [step_hostOp s _ ops rest hturns hprog]
    exact onNext_memRead_withQueue r s _ ops rest hr hdefined

end Sys2Proof.Machine
end

section
/-! LOADD, LOADG and COPYXD (30_encoding.md R94): runs of host statements, and what a buffer holds after its words were
written one after another. -/

namespace Sys2Proof.Machine

/-! ## Runs of host statements -/

/-- `k` host turns take `stmts` from `s` to `t`, whatever program and schedule follow. The queues of `s` and `t` themselves
do not matter. -/
def HostRuns (stmts : List HostOp) (k : Nat) (s t : State) : Prop :=
  ∀ (ops : List HostOp) (rest : List Turn),
    Host.Core.run core k (withQueue (List.replicate k .host ++ rest) (stmts ++ ops) s) = .next (withQueue rest ops t)

/-- The run of a program that begins with the statements, on a schedule that begins with the host's turns. -/
theorem HostRuns.run {stmts : List HostOp} {k : Nat} {s t : State} (h : HostRuns stmts k s t) (ops : List HostOp)
    (rest : List Turn) (hturns : s.turns = List.replicate k .host ++ rest) (hprog : s.host.prog = stmts ++ ops) :
    Host.Core.run core k s = .next (withQueue rest ops t) := by
  have hrun := h ops rest
  rw [withQueue_self s _ _ hturns hprog] at hrun
  exact hrun

theorem HostRuns.nil (s : State) : HostRuns [] 0 s s := fun _ _ => rfl

/-- A statement that is over in one access. -/
theorem HostRuns.one {op : HostOp} {s t : State}
    (h : ∀ rest ops, execHostOp op (withQueue rest ops s) = .next (withQueue rest ops t)) : HostRuns [op] 1 s t := by
  intro ops rest
  have hstep := step_hostOp (withQueue (.host :: rest) (op :: ops) s) op ops rest rfl rfl
  exact (run_one core _).trans (hstep.trans (h rest ops))

theorem run_add_of_run (M : Host.Core) (j k : Nat) (s t : M.State) (h : M.run j s = .next t) :
    M.run (j + k) s = M.run k t := by
  induction j generalizing s with
  | zero =>
    cases h
    rw [Nat.zero_add]
  | succ j ih =>
    obtain ⟨u, hstep, hrest⟩ := run_succ_next M j s t h
    rw [Nat.succ_add, run_succ_of_step M (j + k) s u hstep, ih u hrest]

theorem HostRuns.append {a b : List HostOp} {j k : Nat} {s u t : State} (ha : HostRuns a j s u) (hb : HostRuns b k u t) :
    HostRuns (a ++ b) (j + k) s t := by
  intro ops rest
  rw [List.append_assoc, List.replicate_add, List.append_assoc]
  exact (run_add_of_run core j k _ _ (ha (b ++ ops) _)).trans (hb ops rest)

/-- A block of statements for each of the words 0 to n - 1, through the states `st 0` to `st n`. -/
theorem HostRuns.range (block : Nat → List HostOp) (c : Nat) (st : Nat → State) (n : Nat)
    (h : ∀ w, w < n → HostRuns (block w) c (st w) (st (w + 1))) :
    HostRuns ((List.range n).flatMap block) (c * n) (st 0) (st n) := by
  induction n with
  | zero => exact HostRuns.nil (st 0)
  | succ n ih =>
    have hinit := ih fun w hw => h w (Nat.lt_succ_of_lt hw)
    rw [List.range_succ, List.flatMap_append, List.flatMap_singleton]
    exact hinit.append (h n (Nat.lt_succ_self n))

/-! ## A buffer filled word by word -/

/-- The storage after the host wrote words 0 to n - 1 of the string whose position `j` is `f j`. -/
def fillWords (size : Nat) (f : Nat → Bool) (cs : Cells Bool) : Nat → Cells Bool
  | 0 => cs
  | n + 1 => splice (32 * n) (storableBits size n (packWord f n)) (fillWords size f cs n)

theorem packWord_div_getLsbD (f : Nat → Bool) (j : Nat) : (packWord f (j / 32)).getLsbD (31 - j % 32) = f j := by
  rw [packWord_getLsbD f (j / 32) (31 - j % 32) (by omega)]
  congr 1
  omega

/-- The positions of the words written hold the string, as far as the storage goes (20_memory.md R62, R63). -/
theorem storedBit_fillWords (size : Nat) (draw f : Nat → Bool) (cs : Cells Bool) (n j : Nat) (h : j / 32 < n) :
    storedBit size draw (fillWords size f cs n) j = (decide (j < size) && f j) := by
  induction n with
  | zero => exact absurd h (Nat.not_lt_zero _)
  | succ n ih =>
    rw [fillWords, storedBit_writeWord]
    by_cases hlast : j / 32 = n
    · rw [if_pos hlast, ← hlast, packWord_div_getLsbD]
    · rw [if_neg hlast, ih (by omega)]

/-- A string of `len` bits that fits the storage is there when all its words were written. -/
theorem map_storedBit_fillWords (size : Nat) (draw f : Nat → Bool) (cs : Cells Bool) (len : Nat) (h : len ≤ size) :
    (List.range len).map (storedBit size draw (fillWords size f cs (wordsFor len))) = (List.range len).map f := by
  refine List.map_congr_left fun j hj => ?_
  have hj : j < len := List.mem_range.1 hj
  have hsize : j < size := by omega
  rw [storedBit_fillWords size draw f cs (wordsFor len) j (by unfold wordsFor; omega)]
  simp [hsize]

theorem map_range_getD (str : Bits) : (List.range str.length).map (fun j => str.getD j false) = str := by
  apply List.ext_getElem (by simp)
  intro j _ hj
  simp [hj]

/-- `s` with words 0 to n - 1 of the string `f` written to DBUF. -/
def fillDbuf (f : Nat → Bool) (s : State) (n : Nat) : State :=
  { s with mem := { s.mem with dbuf := fillWords s.cfg.lmax f s.mem.dbuf n } }

/-- `s` with words 0 to n - 1 of the string `f` written to GBUF. -/
def fillGbuf (f : Nat → Bool) (s : State) (n : Nat) : State :=
  { s with mem := { s.mem with gbuf := fillWords s.cfg.nmax f s.mem.gbuf n } }

theorem fillDbuf_succ (f : Nat → Bool) (s : State) (n : Nat) :
    fillDbuf f s (n + 1) = writeDbufWord n (packWord f n) (fillDbuf f s n) := rfl

theorem fillGbuf_succ (f : Nat → Bool) (s : State) (n : Nat) :
    fillGbuf f s (n + 1) = writeGbufWord n (packWord f n) (fillGbuf f s n) := rfl

theorem dividendBits_fillDbuf (f : Nat → Bool) (s : State) (len : Nat) (hlen : s.regs.dlen.toNat = len)
    (hfits : len ≤ s.cfg.lmax) : dividendBits (fillDbuf f s (wordsFor len)) = (List.range len).map f := by
  subst hlen
  exact map_storedBit_fillWords s.cfg.lmax (Config.dbufDraw s.epoch) f s.mem.dbuf s.regs.dlen.toNat hfits

theorem generatorBits_fillGbuf (f : Nat → Bool) (s : State) (len : Nat) (hlen : s.regs.glen.toNat = len)
    (hfits : len ≤ s.cfg.nmax) : generatorBits (fillGbuf f s (wordsFor len)) = (List.range len).map f := by
  subst hlen
  exact map_storedBit_fillWords s.cfg.nmax (Config.gbufDraw s.epoch) f s.mem.gbuf s.regs.glen.toNat hfits

/-- `s` with DLEN written (20_memory.md R65). -/
def setDlen (v : Word) (s : State) : State := { s with regs := { s.regs with dlen := v } }

/-- `s` with GLEN written (20_memory.md R65). -/
def setGlen (v : Word) (s : State) : State := { s with regs := { s.regs with glen := v } }

theorem writeReg_dlen (v : Word) (s : State) : writeReg .dlen v s = .next (setDlen v s) := rfl

theorem writeReg_glen (v : Word) (s : State) : writeReg .glen v s = .next (setGlen v s) := rfl

/-! ## LOADD and LOADG -/

/-- A write of a register that is stored without looking at the queues. -/
theorem HostRuns.wr (r : Reg) (v : Word) {s t : State} (hr : r.wellFormed = true)
    (h : ∀ rest ops, writeReg r v (withQueue rest ops s) = .next (withQueue rest ops t)) :
    HostRuns [.wr (regOffset r) v] 1 s t :=
  HostRuns.one fun rest ops => (memWrite_regOffset r v _ hr).trans (h rest ops)

/-- The words of a string, written in order. -/
theorem HostRuns.loadWords (buf : Nat → Reg) (str : Bits) (st : Nat → State)
    (h : ∀ w, w < wordsFor str.length →
      HostRuns [.wr (regOffset (buf w)) (packWord (fun j => str.getD j false) w)] 1 (st w) (st (w + 1))) :
    HostRuns (hostLoadWords buf str) (wordsFor str.length) (st 0) (st (wordsFor str.length)) := by
  have hrun := HostRuns.range _ 1 st _ h
  rw [Nat.one_mul, ← List.map_eq_flatMap] at hrun
  exact hrun

/-- The write of word `w` fills DBUF on. -/
theorem fillDbuf_word_runs (f : Nat → Bool) (s : State) (w : Nat) (hw : w < 1024) :
    HostRuns [.wr (regOffset (.dbuf w)) (packWord f w)] 1 (fillDbuf f s w) (fillDbuf f s (w + 1)) := by
  rw [fillDbuf_succ]
  exact HostRuns.wr (.dbuf w) _ (decide_eq_true hw) fun _ _ => rfl

/-- `s` after LOADD of a string: its length in DLEN, its words in DBUF. -/
def loadedD (str : Bits) (s : State) : State :=
  fillDbuf (fun j => str.getD j false) (setDlen (BitVec.ofNat 32 str.length) s) (wordsFor str.length)

/-- The write of word `w` fills GBUF on. -/
theorem fillGbuf_word_runs (f : Nat → Bool) (s : State) (w : Nat) (hw : w < 32) :
    HostRuns [.wr (regOffset (.gbuf w)) (packWord f w)] 1 (fillGbuf f s w) (fillGbuf f s (w + 1)) := by
  rw [fillGbuf_succ]
  exact HostRuns.wr (.gbuf w) _ (decide_eq_true hw) fun _ _ => rfl

/-- `s` after LOADG of a string: its length in GLEN, its words in GBUF. -/
def loadedG (str : Bits) (s : State) : State :=
  fillGbuf (fun j => str.getD j false) (setGlen (BitVec.ofNat 32 str.length) s) (wordsFor str.length)

theorem hostLoadD_runs (str : Bits) (s : State) (h : str.length ≤ 32768) :
    HostRuns (hostLoadD str) (1 + wordsFor str.length) s (loadedD str s) := by
  have hlen : HostRuns [.wr (regOffset .dlen) (BitVec.ofNat 32 str.length)] 1 s (setDlen (BitVec.ofNat 32 str.length) s) :=
    HostRuns.wr .dlen _ rfl fun _ _ => writeReg_dlen _ _
  have hwords := HostRuns.loadWords .dbuf str
    (fillDbuf (fun j => str.getD j false) (setDlen (BitVec.ofNat 32 str.length) s)) fun w hw =>
      fillDbuf_word_runs _ _ w (by unfold wordsFor at hw; omega)
  exact hlen.append hwords

theorem hostLoadG_runs (str : Bits) (s : State) (h : str.length ≤ 1024) :
    HostRuns (hostLoadG str) (1 + wordsFor str.length) s (loadedG str s) := by
  have hlen : HostRuns [.wr (regOffset .glen) (BitVec.ofNat 32 str.length)] 1 s (setGlen (BitVec.ofNat 32 str.length) s) :=
    HostRuns.wr .glen _ rfl fun _ _ => writeReg_glen _ _
  have hwords := HostRuns.loadWords .gbuf str
    (fillGbuf (fun j => str.getD j false) (setGlen (BitVec.ofNat 32 str.length) s)) fun w hw =>
      fillGbuf_word_runs _ _ w (by unfold wordsFor at hw; omega)
  exact hlen.append hwords

theorem dividendBits_loadedD (str : Bits) (s : State) (hfits : str.length ≤ s.cfg.lmax) (h : str.length ≤ 32768) :
    dividendBits (loadedD str s) = str :=
  (dividendBits_fillDbuf _ (setDlen (BitVec.ofNat 32 str.length) s) str.length (toNat_ofNat_length _ h) hfits).trans
    (map_range_getD str)

theorem generatorBits_loadedG (str : Bits) (s : State) (hfits : str.length ≤ s.cfg.nmax) (h : str.length ≤ 32768) :
    generatorBits (loadedG str s) = str :=
  (generatorBits_fillGbuf _ (setGlen (BitVec.ofNat 32 str.length) s) str.length (toNat_ofNat_length _ h) hfits).trans
    (map_range_getD str)

/-- Settles O54: the statements run to the loaded state, which differs from the state before in one buffer and its
length. -/
theorem loadLeavesTheStringAsOperand : Obligations.LoadLeavesTheStringAsOperand := by
  intro s str ops rest hlegal hturns
  obtain ⟨-, hlmax, -, hnmax⟩ := (params_legal_iff s.cfg).1 hlegal
  constructor
  · intro hfits hprog
    exact ⟨_, (hostLoadD_runs str s (by omega)).run ops rest hturns hprog, dividendBits_loadedD str s hfits (by omega),
      rfl, rfl, rfl, rfl, rfl⟩
  · intro hfits hprog
    exact ⟨_, (hostLoadG_runs str s (by omega)).run ops rest hturns hprog, generatorBits_loadedG str s hfits (by omega),
      rfl, rfl, rfl, rfl, rfl⟩

/-! ## COPYXD -/

/-- MOV of an XBUF word to a DBUF word, with no command running. -/
theorem hostMov_runs (w : Nat) (s : State) (hw : w < 1024) (hidle : s.regs.status.busy = false) :
    HostRuns (hostMov (.dbuf w) (.xbuf w)) 2 s
      (setTemp (regValue s (.xbuf w)) (writeDbufWord w (regValue s (.xbuf w)) s)) := by
  intro ops rest
  have hrun := run_rd_then (withQueue (.host :: .host :: rest) (hostMov (.dbuf w) (.xbuf w) ++ ops) s) (.xbuf w)
    (.wrT (regOffset (.dbuf w))) ops rest (decide_eq_true hw) (.inl hidle) rfl rfl
  exact hrun.trans (memWrite_regOffset (.dbuf w) _ _ (decide_eq_true hw))

/-- XBUF below XLEN, as the result view shows it (20_memory.md R70). -/
def shownFrameBit (s : State) (j : Nat) : Bool := decide (j < s.regs.xlen.toNat) && xbufBit s j

theorem map_shownFrameBit (s : State) : (List.range s.regs.xlen.toNat).map (shownFrameBit s) = frameBits s :=
  List.map_congr_left fun j hj => by simp [shownFrameBit, List.mem_range.1 hj]

/-- What `t` holds after the first `n` of COPYXD's moves. -/
def tempAfterMoves (s : State) : Nat → Word
  | 0 => s.host.t
  | n + 1 => regValue s (.xbuf n)

/-- `s` after the first `n` of COPYXD's moves. -/
def copiedXd (s : State) (n : Nat) : State := setTemp (tempAfterMoves s n) (fillDbuf (shownFrameBit s) s n)

/-- The next move reads a word that the moves before it left alone. -/
theorem copiedXd_succ (s : State) (w : Nat) : copiedXd s (w + 1) =
    setTemp (regValue (copiedXd s w) (.xbuf w)) (writeDbufWord w (regValue (copiedXd s w) (.xbuf w)) (copiedXd s w)) := rfl

theorem copyXdMoves_runs (s : State) (n : Nat) (hn : n ≤ 1024) (hidle : s.regs.status.busy = false) :
    HostRuns ((List.range n).flatMap fun w => hostMov (.dbuf w) (.xbuf w)) (2 * n) s (copiedXd s n) := by
  refine HostRuns.range _ 2 (copiedXd s) n fun w hw => ?_
  rw [copiedXd_succ]
  exact hostMov_runs w (copiedXd s w) (by omega) hidle

/-- `s` when COPYXD has read XLEN to `t` and written `t` to DLEN. -/
def xlenCopied (s : State) : State := setTemp s.regs.xlen (setDlen s.regs.xlen s)

theorem copyXdRest_runs (s : State) (hidle : s.regs.status.busy = false) (hfits : s.regs.xlen.toNat ≤ 32768) :
    HostRuns (copyXdRest s.regs.xlen) (1 + 2 * wordsFor s.regs.xlen.toNat) (setTemp s.regs.xlen s)
      (copiedXd (xlenCopied s) (wordsFor s.regs.xlen.toNat)) := by
  have hlen : HostRuns [.wrT (regOffset .dlen)] 1 (setTemp s.regs.xlen s) (xlenCopied s) :=
    HostRuns.one fun _ _ => memWrite_regOffset .dlen _ _ rfl
  exact hlen.append (copyXdMoves_runs (xlenCopied s) _ (by unfold wordsFor; omega) hidle)

/-- COPYXD reads XLEN and puts back what is left of it. -/
theorem step_copyXd (s : State) (ops : List HostOp) (rest : List Turn) (hidle : s.regs.status.busy = false)
    (hturns : s.turns = .host :: rest) (hprog : s.host.prog = .copyXd :: ops) :
    step s = .next (withQueue rest (copyXdRest s.regs.xlen ++ ops) (setTemp s.regs.xlen s)) := by
  rw [step_hostOp s .copyXd ops rest hturns hprog, execHostOp, onNext_memRead_withQueue .xlen s _ ops rest rfl (.inl hidle)]
  rfl

theorem dividendBits_copiedXd (s : State) (hfits : s.regs.xlen.toNat ≤ s.cfg.lmax) :
    dividendBits (copiedXd (xlenCopied s) (wordsFor s.regs.xlen.toNat)) = frameBits s :=
  (dividendBits_fillDbuf (shownFrameBit s) (xlenCopied s) _ rfl hfits).trans (map_shownFrameBit s)

/-- Settles O55: the first step reads XLEN, the second writes it to DLEN, and the moves fill DBUF with the frame. -/
theorem copyXdMovesTheFrame : Obligations.CopyXdMovesTheFrame := by
  intro s ops rest hlegal hidle hfits hturns hprog
  obtain ⟨-, hlmax, -, -⟩ := (params_legal_iff s.cfg).1 hlegal
  have hcount : 2 + 2 * wordsFor s.regs.xlen.toNat = (1 + 2 * wordsFor s.regs.xlen.toNat) + 1 := by omega
  rw [hcount, List.replicate_succ] at hturns
  rw [hcount]
  have hread := step_copyXd s ops _ hidle hturns hprog
  have hrest := copyXdRest_runs s hidle (by omega) ops rest
  exact ⟨_, (run_succ_of_step core _ s _ hread).trans hrest, dividendBits_copiedXd s hfits, rfl, rfl, rfl, rfl, rfl⟩

end Sys2Proof.Machine
end

section
/-! The division of 40_divider.md: what a window step does position by position (R100), the records of a sweep (R107), and
the remainder in each of its cases (R103 to R106). -/

namespace Sys2Proof.Machine

/-! ## One window step -/

theorem substr_getElem? (s : Bits) (start len k : Nat) (h : k < len) : (substr s start len)[k]? = s[start + k]? := by
  rw [substr, List.getElem?_take, if_pos h, List.getElem?_drop]

/-- Only the window is exchanged, for the record's window after the step. -/
theorem windowStep_buffer (w g : Bits) (i : Nat) :
    (windowStep w g i).1 = w.take i ++ (windowStep w g i).2.after ++ w.drop (i + g.length) := rfl

/-- The XOR is decided by the buffer's bit at the offset. -/
theorem windowStep_xored (w g : Bits) (i : Nat) (hg : 1 ≤ g.length) :
    (windowStep w g i).2.xored = w.getD i false := by
  have hhead : (substr w i g.length).head? = w[i]? := by
    rw [List.head?_eq_getElem?, substr_getElem? w i g.length 0 hg, Nat.add_zero]
  rw [List.getD_eq_getElem?_getD, ← hhead, ← List.headD_eq_head?_getD]
  rfl

theorem windowStep_after_of_xored (w g : Bits) (i : Nat) (h : (windowStep w g i).2.xored = true) :
    (windowStep w g i).2.after = xorBits (windowStep w g i).2.before g := if_pos h

theorem windowStep_after_of_not_xored (w g : Bits) (i : Nat) (h : (windowStep w g i).2.xored = false) :
    (windowStep w g i).2.after = (windowStep w g i).2.before := if_neg (Bool.eq_false_iff.1 h)

/-- The window of the new buffer is the record's window after the step. -/
theorem substr_windowStep (w g : Bits) (i : Nat) (h : i + g.length ≤ w.length) :
    substr (windowStep w g i).1 i g.length = (windowStep w g i).2.after := by
  have hbefore : (w.take i).length = i := by rw [List.length_take]; omega
  rw [substr, windowStep_buffer, List.append_assoc, List.drop_left' hbefore,
    List.take_left' (windowStep_after_length w g i h)]

theorem substr_split (w : Bits) (i n : Nat) : w.take i ++ substr w i n ++ w.drop (i + n) = w := by
  rw [substr, List.append_assoc, ← List.drop_drop, List.take_append_drop, List.take_append_drop]

theorem windowStep_of_leading_zero (w g : Bits) (i : Nat) (hg : 1 ≤ g.length) (h : w.getD i false = false) :
    (windowStep w g i).1 = w := by
  rw [windowStep_buffer, windowStep_after_of_not_xored w g i ((windowStep_xored w g i hg).trans h)]
  exact substr_split w i g.length

/-- With the leading bit 1 the generator is XORed into the window (40_divider.md R100). -/
theorem windowStep_of_leading_one (w g : Bits) (i j : Nat) (h : i + g.length ≤ w.length) (hone : w.getD i false = true)
    (hj : j < g.length) :
    (windowStep w g i).1[i + j]? = some (xor (w.getD (i + j) false) (g.getD j false)) := by
  have hafter := windowStep_after_of_xored w g i ((windowStep_xored w g i (by omega)).trans hone)
  have hbefore : (windowStep w g i).2.before[j]? = w[i + j]? := substr_getElem? w i g.length j hj
  have hw : i + j < w.length := by omega
  rw [← substr_getElem? _ i g.length j hj, substr_windowStep w g i h, hafter, xorBits, List.getElem?_zipWith, hbefore]
  simp [hj, hw]

/-- Settles O12, clause by clause: the frame of the window, the two cases of the leading bit, and the record. -/
theorem windowStepXorsTheGeneratorIn : Obligations.WindowStepXorsTheGeneratorIn := by
  intro w g i hleading hfits w' r
  have hg : 1 ≤ g.length := List.length_pos_of_mem (List.mem_of_head? hleading)
  have hbit : ∀ b, w[i]? = some b → w.getD i false = b := fun b hb => by rw [List.getD_eq_getElem?_getD, hb]; rfl
  exact ⟨windowStep_length w g i hfits, fun j hj => windowStep_outside w g i j hfits hj,
    fun hone j hj => windowStep_of_leading_one w g i j hfits (hbit true hone) hj,
    fun hzero => windowStep_of_leading_zero w g i hg (hbit false hzero),
    windowStep_clears_leading w g i hfits hleading, rfl, rfl, rfl, windowStep_xored w g i hg,
    (substr_windowStep w g i hfits).symm⟩

/-! ## The sweep -/

/-- Settles O13: the records of the sweep are those of `sweepSteps_record`, and a record's window after the step follows
its XOR bit. -/
theorem traceHoldsOneRecordPerWindow : Obligations.TraceHoldsOneRecordPerWindow := by
  intro d g _ _ recs
  have hlen : recs.length = windowCount d.length g.length := (sweepSteps_length d g _ (Nat.le_refl _)).2
  refine ⟨hlen, fun r hr => ?_⟩
  obtain ⟨rec, hat, rfl, hoff, hwidth, hbefore, hafter, -⟩ :=
    sweepSteps_record d g _ r (Nat.le_refl (windowCount d.length g.length)) (hlen ▸ hr)
  exact ⟨_, hat, rfl, hoff, hwidth, hbefore, hafter, windowStep_after_of_not_xored _ g r,
    windowStep_after_of_xored _ g r⟩

theorem sweep_of_no_window (d g : Bits) (h : d.length < g.length) : sweep d g = (d, []) := by
  have hcount : windowCount d.length g.length = 0 := by unfold windowCount; omega
  rw [sweep, hcount, sweepSteps]

theorem sweep_buffer_length (d g : Bits) : (sweep d g).1.length = d.length := (sweepSteps_length d g _ (Nat.le_refl _)).1

/-! ## The remainder -/

theorem remainder_of_one (w : Bits) (lw : Nat) : remainder w lw 1 = [false] := if_pos rfl

/-- The general case: the last n - 1 bits of the buffer (40_divider.md R104). -/
theorem remainder_of_le (w : Bits) (lw n : Nat) (hn : 2 ≤ n) (h : n - 1 ≤ lw) :
    remainder w lw n = substr w (lw + 1 - n) (n - 1) := by
  rw [remainder, if_neg (by omega), if_pos h, show lw - (n - 1) = lw + 1 - n by omega]

/-- The short dividend, padded on the left (40_divider.md R105). -/
theorem remainder_of_lt (w : Bits) (lw n : Nat) (h : lw < n - 1) : remainder w lw n = zeros (n - 1 - lw) ++ w := by
  rw [remainder, if_neg (by omega), if_neg (by omega)]

theorem mod2Div_remainder (d g : Bits) : (mod2Div d g).1 = remainder (sweep d g).1 d.length g.length := rfl

theorem mod2Div_records (d g : Bits) : (mod2Div d g).2 = (sweep d g).2 := rfl

theorem mod2Div_remainder_length (d g : Bits) (hg : 1 ≤ g.length) : (mod2Div d g).1.length = remainderLength g.length := by
  rw [mod2Div_remainder, ← sweep_buffer_length d g]
  exact remainder_length _ _ hg

/-- Every record of a sweep has the generator's width. -/
theorem sweepSteps_width (d g : Bits) (m : Nat) : ∀ r ∈ (sweepSteps d g m).2, r.width = g.length := by
  induction m with
  | zero => exact fun r hr => absurd hr List.not_mem_nil
  | succ m ih =>
    rw [sweepSteps_records_succ]
    exact List.forall_mem_append.2 ⟨ih, List.forall_mem_singleton.2 rfl⟩

/-- Settles O14, by the cases of `remainder`; without a window the swept buffer is the dividend itself. -/
theorem remainderInEveryCase : Obligations.RemainderInEveryCase := by
  intro d g hg n rem
  refine ⟨fun hone => ⟨?_, ?_, fun r hr => (sweepSteps_width d g _ r hr).trans hone⟩,
    fun hn hle => remainder_of_le _ _ n hn hle, fun hn heq => ?_, fun hn hlt => ⟨?_, ?_⟩, ?_⟩
  · exact (congrArg (remainder (sweep d g).1 d.length) hone).trans (remainder_of_one _ _)
  · have hlen := (sweepSteps_length d g _ (Nat.le_refl (windowCount d.length g.length))).2
    exact hlen.trans (by unfold windowCount; omega)
  · have hshort : d.length < g.length := by omega
    have hstart : d.length + 1 - n = 0 := by omega
    show remainder (sweep d g).1 d.length n = d
    rw [sweep_of_no_window d g hshort, remainder_of_le d _ n hn (by omega), hstart, ← heq]
    exact List.take_length
  · have hshort : d.length < g.length := by omega
    show remainder (sweep d g).1 d.length n = _
    rw [sweep_of_no_window d g hshort]
    exact remainder_of_lt d _ n hlt
  · have hshort : d.length < g.length := by omega
    rw [mod2Div_records, sweep_of_no_window d g hshort]
  · have hlen : rem.length = max (n - 1) 1 := mod2Div_remainder_length d g hg
    rw [hlen]
    split <;> omega

end Sys2Proof.Machine
end

section
/-! The polynomial reading of a bit string (00_scope.md R10; log entry 24): the swept buffer keeps the dividend's residue,
and its nonzero bits are too few to be reduced further (40_divider.md R110). -/

namespace Sys2Proof.Machine

open Polynomial

/-- The polynomial of a bit string, position 0 the highest power. -/
noncomputable def bitsPoly (s : Bits) : (ZMod 2)[X] :=
  s.foldl (fun p b => p * X + C (if b then 1 else 0)) 0

theorem bitsPoly_append_singleton (s : Bits) (b : Bool) :
    bitsPoly (s ++ [b]) = bitsPoly s * X + C (if b then 1 else 0) :=
  List.foldl_concat _ _ _ _

theorem bitsPoly_append (a b : Bits) : bitsPoly (a ++ b) = bitsPoly a * X ^ b.length + bitsPoly b := by
  induction b using List.reverseRecOn with
  | nil => simp [bitsPoly]
  | append_singleton b x ih =>
    rw [← List.append_assoc, bitsPoly_append_singleton, bitsPoly_append_singleton, ih, List.length_append,
      List.length_singleton]
    ring

theorem bitsPoly_zeros (k : Nat) : bitsPoly (zeros k) = 0 := by
  induction k with
  | zero => rfl
  | succ k ih =>
    rw [zeros, List.replicate_succ', bitsPoly_append_singleton]
    simp [show bitsPoly (List.replicate k false) = 0 from ih]

theorem bitsPoly_zeros_append (k : Nat) (s : Bits) : bitsPoly (zeros k ++ s) = bitsPoly s := by
  rw [bitsPoly_append, bitsPoly_zeros, zero_mul, zero_add]

/-- The polynomial from the leading bit on. -/
theorem bitsPoly_cons (b : Bool) (s : Bits) : bitsPoly (b :: s) = C (if b then 1 else 0) * X ^ s.length + bitsPoly s := by
  rw [← List.singleton_append, bitsPoly_append, ← List.nil_append [b], bitsPoly_append_singleton]
  simp [bitsPoly]

theorem coeff_xor (a b : Bool) :
    (if xor a b then 1 else 0 : ZMod 2) = (if a then 1 else 0) + (if b then 1 else 0) := by
  revert a b; decide

/-- XOR of two strings of one length is the sum of their polynomials. -/
theorem bitsPoly_xorBits (a b : Bits) (h : a.length = b.length) : bitsPoly (xorBits a b) = bitsPoly a + bitsPoly b := by
  induction a generalizing b with
  | nil =>
    rw [List.length_eq_zero_iff.1 h.symm]
    simp [bitsPoly, xorBits]
  | cons x a ih =>
    cases b with
    | nil => cases h
    | cons y b =>
      have hlen : a.length = b.length := Nat.succ.inj h
      have hcons : xorBits (x :: a) (y :: b) = xor x y :: xorBits a b := rfl
      have hxor : (xorBits a b).length = b.length := by rw [xorBits_length, hlen, Nat.min_self]
      rw [hcons, bitsPoly_cons, bitsPoly_cons, bitsPoly_cons, ih b hlen, hxor, hlen, coeff_xor, C_add]
      ring

theorem degree_bitsPoly_lt (s : Bits) : (bitsPoly s).degree < s.length := by
  induction s with
  | nil => simp [bitsPoly]
  | cons b s ih =>
    have hlength : (s.length : WithBot Nat) < ((s.length + 1 : Nat) : WithBot Nat) := by
      exact_mod_cast Nat.lt_succ_self s.length
    rw [bitsPoly_cons, List.length_cons]
    exact (degree_add_le _ _).trans_lt (max_lt ((degree_C_mul_X_pow_le _ _).trans_lt hlength) (ih.trans hlength))

/-- A string with leading bit 1 is a monic polynomial, one degree below its length. -/
theorem bitsPoly_leading_one (s : Bits) (h : s.head? = some true) :
    (bitsPoly s).Monic ∧ (bitsPoly s).degree = (s.length - 1 : Nat) := by
  obtain ⟨rest, rfl⟩ : ∃ rest, s = true :: rest := ⟨s.tail, List.eq_cons_of_mem_head? h⟩
  have hpoly : bitsPoly (true :: rest) = X ^ rest.length + bitsPoly rest := by simp [bitsPoly_cons]
  have hlower : (bitsPoly rest).degree < (X ^ rest.length : (ZMod 2)[X]).degree := by
    rw [degree_X_pow]
    exact degree_bitsPoly_lt rest
  rw [hpoly]
  exact ⟨monic_X_pow_add (degree_bitsPoly_lt rest), (degree_add_eq_left_of_degree_lt hlower).trans (degree_X_pow _)⟩

/-! ## The sweep keeps the residue -/

/-- A window step adds a multiple of the generator. -/
theorem bitsPoly_windowStep (w g : Bits) (i : Nat) (h : i + g.length ≤ w.length) :
    bitsPoly g ∣ bitsPoly (windowStep w g i).1 - bitsPoly w := by
  have hbefore : (substr w i g.length).length = g.length := substr_length w i g.length h
  have hafter := windowStep_after_length w g i h
  cases hx : (windowStep w g i).2.xored with
  | false =>
    have hsame : (windowStep w g i).1 = w := by
      rw [windowStep_buffer, windowStep_after_of_not_xored w g i hx]
      exact substr_split w i g.length
    rw [hsame, sub_self]
    exact dvd_zero _
  | true =>
    have hw : bitsPoly w = bitsPoly (w.take i ++ substr w i g.length ++ w.drop (i + g.length)) := by rw [substr_split]
    have hsum : bitsPoly (windowStep w g i).2.after = bitsPoly (substr w i g.length) + bitsPoly g := by
      rw [windowStep_after_of_xored w g i hx]
      exact bitsPoly_xorBits _ g hbefore
    rw [windowStep_buffer, hw]
    simp only [bitsPoly_append, hsum, hafter, hbefore]
    exact ⟨X ^ (w.drop (i + g.length)).length, by ring⟩

theorem bitsPoly_sweepSteps (d g : Bits) (m : Nat) (hm : m ≤ windowCount d.length g.length) :
    bitsPoly g ∣ bitsPoly (sweepSteps d g m).1 - bitsPoly d := by
  induction m with
  | zero => simp [sweepSteps]
  | succ m ih =>
    obtain ⟨hlen, -⟩ := sweepSteps_length d g m (by omega)
    have hfits : m + g.length ≤ (sweepSteps d g m).1.length := by rw [hlen]; unfold windowCount at hm; omega
    rw [sweepSteps_buffer_succ, ← sub_add_sub_cancel _ (bitsPoly (sweepSteps d g m).1)]
    exact dvd_add (bitsPoly_windowStep _ g m hfits) (ih (by omega))

/-! ## What the sweep leaves -/

/-- Every offset the sweep has passed holds 0 (40_divider.md R101). -/
theorem sweepSteps_passed_zero (d g : Bits) (hg : g.head? = some true) (m : Nat) (hm : m ≤ windowCount d.length g.length)
    (j : Nat) (hj : j < m) : (sweepSteps d g m).1[j]? = some false := by
  induction m with
  | zero => exact absurd hj (Nat.not_lt_zero j)
  | succ m ih =>
    obtain ⟨hlen, -⟩ := sweepSteps_length d g m (by omega)
    have hfits : m + g.length ≤ (sweepSteps d g m).1.length := by rw [hlen]; unfold windowCount at hm; omega
    rw [sweepSteps_buffer_succ]
    rcases Nat.lt_succ_iff_lt_or_eq.1 hj with hlt | rfl
    · rw [windowStep_outside _ g m j hfits (.inl hlt)]
      exact ih (by omega) hlt
    · exact windowStep_clears_leading _ g j hfits hg

theorem take_eq_zeros (w : Bits) (m : Nat) (h : ∀ j, j < m → w[j]? = some false) : w.take m = zeros m := by
  apply List.ext_getElem?
  intro j
  rw [List.getElem?_take, zeros, List.getElem?_replicate]
  by_cases hj : j < m
  · rw [if_pos hj, if_pos hj, h j hj]
  · rw [if_neg hj, if_neg hj]

/-- The remainder is the swept buffer without its leading zeros, or with more of them. -/
theorem bitsPoly_remainder (d g : Bits) (hn : 2 ≤ g.length) (hg : g.head? = some true) :
    bitsPoly (mod2Div d g).1 = bitsPoly (sweep d g).1 := by
  have hlen := sweep_buffer_length d g
  rw [mod2Div_remainder]
  by_cases hlong : g.length - 1 ≤ d.length
  · have hcut : d.length + 1 - g.length + (g.length - 1) = (sweep d g).1.length := by omega
    have hzeros : (sweep d g).1.take (d.length + 1 - g.length) = zeros (d.length + 1 - g.length) :=
      take_eq_zeros _ _ (sweepSteps_passed_zero d g hg (windowCount d.length g.length) (Nat.le_refl _))
    have hsplit := substr_split (sweep d g).1 (d.length + 1 - g.length) (g.length - 1)
    rw [hcut, List.drop_length, List.append_nil, hzeros] at hsplit
    rw [remainder_of_le _ _ _ hn hlong, ← bitsPoly_zeros_append, hsplit]
  · rw [remainder_of_lt _ _ _ (by omega), bitsPoly_zeros_append]

/-- Settles O15: the remainder differs from the dividend by a multiple of the generator and has a smaller degree. -/
theorem remainderIsThePolynomialRemainder : Obligations.RemainderIsThePolynomialRemainder := by
  intro d g hn hg
  have hlen : (mod2Div d g).1.length = g.length - 1 :=
    (mod2Div_remainder_length d g (by omega)).trans (by unfold remainderLength; omega)
  obtain ⟨hmonic, hdegree⟩ := bitsPoly_leading_one g hg
  have hsmall : (bitsPoly (mod2Div d g).1).degree < (bitsPoly g).degree := by
    rw [hdegree, ← hlen]
    exact degree_bitsPoly_lt _
  have hresidue : bitsPoly g ∣ bitsPoly (mod2Div d g).1 - bitsPoly d := by
    rw [bitsPoly_remainder d g hn hg]
    exact bitsPoly_sweepSteps d g _ (Nat.le_refl _)
  refine ⟨hlen, ?_⟩
  calc bitsPoly (mod2Div d g).1 = bitsPoly (mod2Div d g).1 %ₘ bitsPoly g := ((modByMonic_eq_self_iff hmonic).2 hsmall).symm
    _ = bitsPoly d %ₘ bitsPoly g := modByMonic_eq_of_dvd_sub hmonic hresidue

end Sys2Proof.Machine
end

section
/-! The engine's steps (40_divider.md R112 to R116): the accepted launch, what no step writes, one window step and one
finish step. -/

namespace Sys2Proof.Machine

/-! ## The accepted launch -/

/-- Each of the six commands launches with its own OP and T (30_encoding.md R81 to R83). -/
theorem exec_command (i : Instr) (op : Op) (tr : Bool) (h : (i, op, tr) ∈ commands) (s : State) :
    exec i s = launch (commandLow op tr) (some (op, tr)) s := by
  simp only [commands, List.mem_cons, List.not_mem_nil, or_false, Prod.mk.injEq] at h
  rcases h with ⟨rfl, rfl, rfl⟩ | ⟨rfl, rfl, rfl⟩ | ⟨rfl, rfl, rfl⟩ | ⟨rfl, rfl, rfl⟩ | ⟨rfl, rfl, rfl⟩ | ⟨rfl, rfl, rfl⟩ <;>
    rfl

/-- The state right after the accepted launch of a command. -/
def launched (op : Op) (tr : Bool) (s : State) : State := accept op tr (noteLaunch (commandLow op tr) s)

theorem exec_accepted (i : Instr) (op : Op) (tr : Bool) (h : (i, op, tr) ∈ commands) (s : State)
    (hidle : s.eng.phase = .idle) (hlegal : LegalOperands op s) : exec i s = .next (launched op tr s) :=
  (exec_command i op tr h s).trans (launch_accepted _ op tr s hidle hlegal)

theorem workingBuffer_eq_if (op : Op) (d : Bits) (k : Nat) :
    workingBuffer op d k = if op = .encode then d ++ List.replicate k false else d := by
  cases op <;> rfl

/-- Settles O7: the launch is accepted, and the latches are those of `acceptedEngine`. -/
theorem acceptedLaunchSnapshotsTheOperands : Obligations.AcceptedLaunchSnapshotsTheOperands := by
  intro i op tr hcommand s hidle hlegal n w
  have hw : workingBuffer op (dividendBits s) (n - 1) = w := workingBuffer_eq_if op _ _
  rw [exec_accepted i op tr hcommand s hidle hlegal, ← hw]
  rfl

/-! ## What the engine does not write -/

/-- The state with everything erased that the engine writes: the results, BUSY, DONE, CLEAN and TRACED, and the sweep's
own latches. -/
def withoutResults (s : State) : State :=
  { s with
    regs := { s.regs with
      status := { s.regs.status with busy := false, done := false, clean := false, traced := false }
      rlen := 0, xlen := 0, tcount := 0 }
    mem := { s.mem with rbuf := [], xbuf := [], trace := [] }
    eng := { s.eng with phase := .idle, wbuf := [], i := 0, tc := 0 } }

theorem withoutResults_commit (rem : Bits) (s : State) : withoutResults (commit rem s) = withoutResults s := by
  cases hop : s.eng.opL with
  | divide => rw [commit_divide rem s hop]; rfl
  | encode => rw [commit_encode rem s hop]; rfl
  | verify => rw [commit_verify rem s hop]; rfl

theorem withoutResults_engineStep (s : State) : withoutResults (engineStep s) = withoutResults s := by
  rcases engineStep_cases s with ⟨-, h⟩ | ⟨-, -, h⟩ | ⟨-, -, h⟩ <;> rw [h]
  · cases htr : s.eng.trL <;> simp [engineWindowStep, withoutResults, htr]
  · exact withoutResults_commit (remainder s.eng.wbuf s.eng.lw s.eng.nL) s

theorem withoutResults_engineSteps (k : Nat) (s : State) : withoutResults (engineSteps k s) = withoutResults s := by
  induction k generalizing s with
  | zero => rfl
  | succ k ih => exact (ih (engineStep s)).trans (withoutResults_engineStep s)

theorem surroundingsKept_of_withoutResults {s t : State} (h : withoutResults t = withoutResults s) : SurroundingsKept s t :=
  ⟨(congrArg State.cfg h :), (congrArg State.host h :), (congrArg State.turns h :), (congrArg State.draws h :),
    (congrArg State.epoch h :)⟩

theorem operandBitsKept_of_withoutResults {s t : State} (h : withoutResults t = withoutResults s) : OperandBitsKept s t :=
  fun j => ⟨(congrArg (dbufBit · j) h :), (congrArg (gbufBit · j) h :)⟩

/-- Settles O22: none of these is among what the engine writes. -/
theorem engineStepsKeepTheOperands : Obligations.EngineStepsKeepTheOperands := by
  intro k s t
  have h : withoutResults t = withoutResults s := withoutResults_engineSteps k s
  exact ⟨(congrArg (·.regs.dlen) h :), (congrArg (·.regs.glen) h :), (congrArg (·.regs.tidx) h :),
    (congrArg (·.regs.irqEn) h :), (congrArg (·.regs.lastCmd) h :), (congrArg (·.regs.status.dropped) h :),
    surroundingsKept_of_withoutResults h, operandBitsKept_of_withoutResults h,
    fun _ => ⟨(congrArg (·.eng.gL) h :), (congrArg (·.eng.dL) h :), (congrArg (·.eng.nL) h :),
      (congrArg (·.eng.lenL) h :), (congrArg (·.eng.opL) h :), (congrArg (·.eng.trL) h :)⟩⟩

/-! ## One window step -/

/-- Settles O20, field by field: the trace memory is the one storage a window step writes, and that with the trace on. -/
theorem engineWindowStepDoesOneWindow : Obligations.EngineWindowStepDoesOneWindow := by
  intro s hsweep hleft q t
  have ht : t = engineWindowStep s := engineStep_window s hsweep hleft
  have hkept : withoutResults t = withoutResults s := withoutResults_engineStep s
  refine ⟨ht ▸ engineWindowStep_eng s, ht ▸ engineWindowStep_regs s, surroundingsKept_of_withoutResults hkept,
    operandBitsKept_of_withoutResults hkept, fun j => ?_⟩
  rw [ht]
  cases htr : s.eng.trL with
  | false =>
    have hmem : (engineWindowStep s).mem = s.mem := by simp [engineWindowStep_mem, htr]
    simp [rbufBit, xbufBit, traceRecord, hmem]
  | true =>
    have hmem : (engineWindowStep s).mem = (storeRecord s.eng.tc q.2 s).mem := by
      simp only [engineWindowStep_mem, htr, if_true]; rfl
    have htrace : traceRecord (engineWindowStep s) j = if j = s.eng.tc then q.2 else traceRecord s j := by
      rw [← traceRecord_storeRecord, traceRecord, traceRecord, hmem, engineWindowStep_epoch, storeRecord_epoch]
    simp [rbufBit, xbufBit, hmem, htrace]

/-! ## One finish step -/

theorem traceRecord_engineFinishStep (s : State) (j : Nat) : traceRecord (engineFinishStep s) j = traceRecord s j := by
  obtain ⟨-, -, -, -, -, -, -, -, htrace⟩ := commit_frame (remainder s.eng.wbuf s.eng.lw s.eng.nL) s
  rw [traceRecord, traceRecord, engineFinishStep_epoch, engineFinishStep_mem, htrace]

/-- Settles O21: the finish step writes the registers it names over the commit of the latched command, and the bits are
those of `storeResult` and `storeFrame`. -/
theorem engineFinishStepCommitsEveryResult : Obligations.EngineFinishStepCommitsEveryResult := by
  intro s hsweep hover rem k cs t tcount flags result frame
  have ht : t = engineFinishStep s := engineStep_finish s hsweep hover
  have hphase : t.eng.phase = .idle := by rw [ht, engineFinishStep_eng]
  have hframe : SurroundingsKept s t ∧ OperandBitsKept s t ∧ ∀ j, traceRecord t j = traceRecord s j :=
    ⟨surroundingsKept_of_withoutResults (withoutResults_engineStep s),
      operandBitsKept_of_withoutResults (withoutResults_engineStep s), fun j => ht ▸ traceRecord_engineFinishStep s j⟩
  have hregs : t.regs = _ := (congrArg State.regs ht).trans (engineFinishStep_regs s)
  have hrbuf : ∀ j, rbufBit t j = rbufBit (commit rem s) j := fun j => (congrArg (rbufBit · j) ht :)
  have hxbuf : ∀ j, xbufBit t j = xbufBit (commit rem s) j := fun j => (congrArg (xbufBit · j) ht :)
  refine ⟨fun hop => ?_, fun hop => ?_, fun hop => ?_, hphase, hframe⟩
  · rw [commit_divide rem s hop] at hregs hrbuf hxbuf
    exact ⟨hregs, fun j => (hrbuf j).trans (rbufBit_storeResult rem s j), hxbuf⟩
  · rw [commit_encode rem s hop] at hregs hrbuf hxbuf
    exact ⟨hregs, fun j => (hrbuf j).trans (rbufBit_storeResult cs s j),
      fun j => (hxbuf j).trans (xbufBit_storeFrame (s.eng.dL ++ cs) (storeResult cs s) j)⟩
  · rw [commit_verify rem s hop] at hregs hrbuf hxbuf
    exact ⟨hregs, fun j => (hrbuf j).trans (rbufBit_storeResult rem s j), hxbuf⟩

end Sys2Proof.Machine
end

section
/-! Runs of the engine: how many steps a running command still takes (40_divider.md R115), and that under the default
schedule they are the machine's steps (log entry 3). -/

namespace Sys2Proof.Machine

/-! ## The steps a running command still takes -/

theorem engineSteps_succ (k : Nat) (s : State) : engineSteps (k + 1) s = engineStep (engineSteps k s) :=
  engineSteps_add k 1 s

theorem engineSteps_lengths (k : Nat) (s : State) :
    (engineSteps k s).eng.lw = s.eng.lw ∧ (engineSteps k s).eng.nL = s.eng.nL := by
  have h := withoutResults_engineSteps k s
  exact ⟨(congrArg (·.eng.lw) h :), (congrArg (·.eng.nL) h :)⟩

/-- While windows are left the engine sweeps on, one offset a step (40_divider.md R113). -/
theorem engineSteps_sweeping (m : Nat) (s : State) (hsweep : s.eng.phase = .sweep)
    (hm : m ≤ windowCount s.eng.lw s.eng.nL - s.eng.i) :
    (engineSteps m s).eng.phase = .sweep ∧ (engineSteps m s).eng.i = s.eng.i + m := by
  induction m with
  | zero => exact ⟨hsweep, rfl⟩
  | succ m ih =>
    obtain ⟨hphase, hi⟩ := ih (by omega)
    obtain ⟨hlw, hn⟩ := engineSteps_lengths m s
    have hleft : (engineSteps m s).eng.i + (engineSteps m s).eng.nL ≤ (engineSteps m s).eng.lw := by
      rw [hi, hlw, hn]; unfold windowCount at hm; omega
    rw [engineSteps_succ, engineStep_window _ hphase hleft, engineWindowStep_eng]
    exact ⟨hphase, by rw [hi, Nat.add_assoc]⟩

/-- After the last window comes the finish step (40_divider.md R114). -/
theorem engineSteps_finish (s : State) (hsweep : s.eng.phase = .sweep) :
    engineSteps (windowCount s.eng.lw s.eng.nL - s.eng.i + 1) s =
      engineFinishStep (engineSteps (windowCount s.eng.lw s.eng.nL - s.eng.i) s) := by
  obtain ⟨hphase, hlast⟩ := engineSteps_sweeping _ s hsweep (Nat.le_refl _)
  obtain ⟨hlw, hn⟩ := engineSteps_lengths (windowCount s.eng.lw s.eng.nL - s.eng.i) s
  rw [engineSteps_succ]
  refine engineStep_finish _ hphase ?_
  rw [hlast, hlw, hn]
  unfold windowCount
  omega

theorem commandEnded_engineFinishStep (s : State) : CommandEnded (engineFinishStep s) :=
  ⟨by rw [engineFinishStep_eng], by rw [engineFinishStep_regs]; rfl⟩

/-! ## The default schedule -/

theorem step_unscheduled_sweep (s : State) (hturns : s.turns = []) (hsweep : s.eng.phase = .sweep) :
    step s = .next (engineStep s) := by
  rw [step_default s hturns, defaultTurn, hsweep]
  rfl

/-- With an empty schedule the machine's steps are the engine's, as long as the engine sweeps. -/
theorem run_unscheduled_sweep (m : Nat) (s : State) (hturns : s.turns = [])
    (hsweep : ∀ j, j < m → (engineSteps j s).eng.phase = .sweep) :
    Host.Core.run core m s = .next (engineSteps m s) := by
  induction m generalizing s with
  | zero => rfl
  | succ m ih =>
    have hstep : step s = .next (engineStep s) := step_unscheduled_sweep s hturns (hsweep 0 (Nat.succ_pos m))
    have hnext : (engineStep s).turns = [] := (engineStep_frame s).2.2.1.trans hturns
    rw [run_succ_of_step core m s _ hstep]
    exact ih (engineStep s) hnext fun j hj => hsweep (j + 1) (Nat.succ_lt_succ hj)

/-- Settles O29: the run is the engine's own, the engine sweeps through its remaining windows, and the step after them is
the finish step, which leaves ERR at the 0 it has while BUSY. -/
theorem runningCommandEndsAfterItsSteps : Obligations.RunningCommandEndsAfterItsSteps := by
  intro s hs hsweep hturns left
  have hphase : ∀ m, m ≤ left → (engineSteps m s).eng.phase = .sweep := fun m hm => (engineSteps_sweeping m s hsweep hm).1
  have hrun : ∀ m, m ≤ left + 1 → Host.Core.run core m s = .next (engineSteps m s) := fun m hm =>
    run_unscheduled_sweep m s hturns fun j hj => hphase j (by omega)
  have hbusy : s.regs.status.busy = true := by rw [hs.status.busy_iff, hsweep]; rfl
  obtain ⟨-, herr, -⟩ := hs.status.busy_clear hbusy
  refine ⟨fun m hm => ⟨_, hrun m (by omega), hphase m hm⟩, _, hrun (left + 1) (Nat.le_refl _), ?_, ?_⟩
  · rw [engineSteps_finish s hsweep]
    exact commandEnded_engineFinishStep _
  · exact (congrArg (·.regs.status.err) (withoutResults_engineSteps (left + 1) s) :).trans herr

end Sys2Proof.Machine
end

section
/-! The trace flag (40_divider.md R108): the traced form of a command runs as the untraced one, but for what it writes of
the trace. -/

namespace Sys2Proof.Machine

/-- The state with everything erased that the T bit decides: the trace memory and its counter, TCOUNT, TRACED, the latched
flag, and LASTCMD, which reads T back. -/
def withoutTrace (s : State) : State :=
  { s with
    regs := { s.regs with lastCmd := 0, tcount := 0, status := { s.regs.status with traced := false } }
    mem := { s.mem with trace := [] }
    eng := { s.eng with trL := false, tc := 0 } }

theorem withoutTrace_commit (rem : Bits) (s : State) : withoutTrace (commit rem s) = commit rem (withoutTrace s) := by
  cases hop : s.eng.opL with
  | divide => rw [commit_divide rem s hop, commit_divide rem (withoutTrace s) hop]; rfl
  | encode => rw [commit_encode rem s hop, commit_encode rem (withoutTrace s) hop]; rfl
  | verify => rw [commit_verify rem s hop, commit_verify rem (withoutTrace s) hop]; rfl

theorem withoutTrace_engineWindowStep (s : State) :
    withoutTrace (engineWindowStep s) = engineWindowStep (withoutTrace s) := by
  cases htr : s.eng.trL <;> simp [engineWindowStep, withoutTrace, htr]

theorem withoutTrace_engineFinishStep (s : State) :
    withoutTrace (engineFinishStep s) = engineFinishStep (withoutTrace s) := by
  have hcommit : withoutTrace (commit (remainder s.eng.wbuf s.eng.lw s.eng.nL) s) =
      commit (remainder (withoutTrace s).eng.wbuf (withoutTrace s).eng.lw (withoutTrace s).eng.nL) (withoutTrace s) :=
    withoutTrace_commit _ s
  rw [engineFinishStep, engineFinishStep, ← hcommit]
  rfl

/-- The engine's step decides nothing by the trace flag but what it writes of the trace. -/
theorem withoutTrace_engineStep (s : State) : withoutTrace (engineStep s) = engineStep (withoutTrace s) := by
  rcases engineStep_cases s with ⟨hidle, h⟩ | ⟨hsweep, hleft, h⟩ | ⟨hsweep, hover, h⟩ <;> rw [h]
  · rw [engineStep_idle (withoutTrace s) hidle]
  · rw [engineStep_window (withoutTrace s) hsweep hleft, withoutTrace_engineWindowStep]
  · rw [engineStep_finish (withoutTrace s) hsweep hover, withoutTrace_engineFinishStep]

theorem withoutTrace_engineSteps (k : Nat) (s : State) : withoutTrace (engineSteps k s) = engineSteps k (withoutTrace s) := by
  induction k generalizing s with
  | zero => rfl
  | succ k ih => exact (ih (engineStep s)).trans (congrArg (engineSteps k) (withoutTrace_engineStep s))

/-- Two states that differ in the trace alone have these in common. -/
theorem results_of_withoutTrace {u v : State} (h : withoutTrace v = withoutTrace u) :
    u.eng.phase = v.eng.phase ∧
    v.regs = { u.regs with
      lastCmd := v.regs.lastCmd, tcount := v.regs.tcount,
      status := { u.regs.status with traced := v.regs.status.traced } } ∧
    (∀ j, rbufBit v j = rbufBit u j ∧ xbufBit v j = xbufBit u j) ∧ OperandBitsKept u v := by
  have hregs : v.regs = { (withoutTrace v).regs with
      lastCmd := v.regs.lastCmd, tcount := v.regs.tcount,
      status := { (withoutTrace v).regs.status with traced := v.regs.status.traced } } := rfl
  rw [h] at hregs
  exact ⟨(congrArg (·.eng.phase) h.symm :), hregs,
    fun j => ⟨(congrArg (rbufBit · j) h :), (congrArg (xbufBit · j) h :)⟩,
    fun j => ⟨(congrArg (dbufBit · j) h :), (congrArg (gbufBit · j) h :)⟩⟩

/-- Settles O26: the two launches differ in the trace alone, and engine steps keep it so. -/
theorem traceFlagChangesOnlyTheTrace : Obligations.TraceFlagChangesOnlyTheTrace := by
  intro i iT op hforms s hidle hlegal
  have hcommands : (i, op, false) ∈ commands ∧ (iT, op, true) ∈ commands := by
    simp only [List.mem_cons, List.not_mem_nil, or_false, Prod.mk.injEq] at hforms
    rcases hforms with ⟨rfl, rfl, rfl⟩ | ⟨rfl, rfl, rfl⟩ | ⟨rfl, rfl, rfl⟩ <;> decide
  refine ⟨_, _, exec_accepted i op false hcommands.1 s hidle hlegal, exec_accepted iT op true hcommands.2 s hidle hlegal,
    fun k => results_of_withoutTrace ?_⟩
  rw [withoutTrace_engineSteps, withoutTrace_engineSteps]
  rfl

end Sys2Proof.Machine
end

section
/-! A whole command from its launch (40_divider.md R112 to R117): where the engine stands after some of its windows, what
the last step leaves, and DIVIDE from the launch to the end. -/

namespace Sys2Proof.Machine

/-! ## After some windows -/

/-- What a command launched in `s` divides. -/
def launchBuffer (op : Op) (s : State) : Bits := workingBuffer op (dividendBits s) (s.regs.glen.toNat - 1)

/-- How many windows a command launched in `s` sweeps (40_divider.md R102). -/
def launchWindows (op : Op) (s : State) : Nat := windowCount (launchBuffer op s).length s.regs.glen.toNat

/-- The remainder and the records of a command launched in `s` (40_divider.md R106). -/
def launchDivision (op : Op) (s : State) : Bits × List TraceRec := mod2Div (launchBuffer op s) (generatorBits s)

/-- The sweep of a command launched in `s`, after `k` windows. -/
def launchSweep (op : Op) (s : State) (k : Nat) : Bits × List TraceRec :=
  sweepSteps (launchBuffer op s) (generatorBits s) k

theorem launchSweep_records_length (op : Op) (s : State) (k : Nat) (hk : k ≤ launchWindows op s) :
    (launchSweep op s k).2.length = k :=
  (sweepSteps_length _ _ k (by rwa [generatorBits_length])).2

theorem launchDivision_eq (op : Op) (s : State) : launchDivision op s =
    (remainder (launchSweep op s (launchWindows op s)).1 (launchBuffer op s).length s.regs.glen.toNat,
      (launchSweep op s (launchWindows op s)).2) := by
  rw [launchDivision, mod2Div, sweep, generatorBits_length]
  rfl

theorem launchDivision_records_length (op : Op) (s : State) : (launchDivision op s).2.length = launchWindows op s := by
  rw [launchDivision_eq]
  exact launchSweep_records_length op s _ (Nat.le_refl _)

/-- `t` is where the engine stands `k` windows after the accepted launch of a command in `s`. -/
structure Swept (op : Op) (tr : Bool) (s : State) (k : Nat) (t : State) : Prop where
  eng : t.eng = { acceptedEngine op tr s with
    wbuf := (launchSweep op s k).1, i := k, tc := if tr = true then k else 0 }
  regs : t.regs = (launched op tr s).regs
  bits : ∀ j, rbufBit t j = rbufBit s j ∧ xbufBit t j = xbufBit s j
  trace : ∀ r, traceRecord t r =
    if tr = true then (launchSweep op s k).2[r]?.getD (traceRecord s r) else traceRecord s r

theorem swept_launched (op : Op) (tr : Bool) (s : State) : Swept op tr s 0 (launched op tr s) := by
  refine ⟨?_, rfl, fun _ => ⟨rfl, rfl⟩, fun r => ?_⟩ <;> cases tr <;> rfl

theorem getElem?_concat_getD {α : Type} (as : List α) (a b : α) (r : Nat) :
    (as ++ [a])[r]?.getD b = if r = as.length then a else as[r]?.getD b := by
  rcases Nat.lt_trichotomy r as.length with hlt | heq | hgt
  · rw [List.getElem?_append_left hlt, if_neg (by omega)]
  · simp [heq]
  · rw [List.getElem?_eq_none (by simp; omega), List.getElem?_eq_none (by omega), if_neg (by omega)]

/-- One more window (40_divider.md R113). -/
theorem Swept.next_window {op : Op} {tr : Bool} {s t : State} {k : Nat} (h : Swept op tr s k t)
    (hk : k < launchWindows op s) : Swept op tr s (k + 1) (engineStep t) := by
  have hphase : t.eng.phase = .sweep := by rw [h.eng]; rfl
  have hoffset : t.eng.i = k ∧ t.eng.nL = s.regs.glen.toNat ∧ t.eng.lw = (launchBuffer op s).length := by
    rw [h.eng]; exact ⟨rfl, rfl, rfl⟩
  have hleft : t.eng.i + t.eng.nL ≤ t.eng.lw := by unfold launchWindows windowCount at hk; omega
  obtain ⟨heng, hregs, -, -, hstorage⟩ := engineWindowStepDoesOneWindow t hphase hleft
  refine ⟨?_, hregs.trans h.regs,
    fun j => ⟨(hstorage j).1.trans (h.bits j).1, (hstorage j).2.1.trans (h.bits j).2⟩, fun r => ?_⟩
  · rw [heng, h.eng]
    cases tr <;> rfl
  · rw [(hstorage r).2.2, h.eng]
    cases tr with
    | false => exact h.trace r
    | true =>
      have hold : traceRecord t r = (launchSweep op s k).2[r]?.getD (traceRecord s r) := h.trace r
      have hrecords : (launchSweep op s (k + 1)).2 =
          (launchSweep op s k).2 ++ [(windowStep (launchSweep op s k).1 (generatorBits s) k).2] := rfl
      simp only [hold, hrecords, if_true, getElem?_concat_getD, launchSweep_records_length op s k (Nat.le_of_lt hk)]
      exact if_congr (and_iff_right rfl) rfl rfl

theorem swept_engineSteps (op : Op) (tr : Bool) (s : State) (k : Nat) (hk : k ≤ launchWindows op s) :
    Swept op tr s k (engineSteps k (launched op tr s)) := by
  induction k with
  | zero => exact swept_launched op tr s
  | succ k ih =>
    rw [engineSteps_succ]
    exact (ih (Nat.le_of_succ_le hk)).next_window hk

/-! ## The last step -/

/-- After the last window the finish step comes next, and its remainder is the division's (40_divider.md R106). -/
theorem Swept.finish {op : Op} {tr : Bool} {s t : State} (h : Swept op tr s (launchWindows op s) t) :
    t.eng.phase = .sweep ∧ t.eng.lw < t.eng.i + t.eng.nL ∧
      remainder t.eng.wbuf t.eng.lw t.eng.nL = (launchDivision op s).1 := by
  rw [h.eng, launchDivision_eq]
  refine ⟨rfl, ?_, rfl⟩
  have hcount : launchWindows op s = (launchBuffer op s).length + 1 - s.regs.glen.toNat := rfl
  show (launchBuffer op s).length < launchWindows op s + s.regs.glen.toNat
  omega

/-- The state at the end of a command launched in `s`. -/
def commandEnd (op : Op) (tr : Bool) (s : State) : State :=
  engineSteps (launchWindows op s + 1) (launched op tr s)

theorem commandEnd_eq_engineStep (op : Op) (tr : Bool) (s : State) :
    commandEnd op tr s = engineStep (engineSteps (launchWindows op s) (launched op tr s)) :=
  engineSteps_succ _ _

/-- What a command keeps from before its launch, whichever it is (40_divider.md R116). -/
theorem commandEnd_keeps (op : Op) (tr : Bool) (s : State) :
    SurroundingsKept s (commandEnd op tr s) ∧ OperandBitsKept s (commandEnd op tr s) := by
  have h : withoutResults (commandEnd op tr s) = withoutResults (launched op tr s) := withoutResults_engineSteps _ _
  have hsurroundings : SurroundingsKept (launched op tr s) (commandEnd op tr s) := surroundingsKept_of_withoutResults h
  have hoperands : OperandBitsKept (launched op tr s) (commandEnd op tr s) := operandBitsKept_of_withoutResults h
  exact ⟨hsurroundings, hoperands⟩

/-- The trace memory at the end: the division's records from entry 0 on when traced, every other entry as before. -/
theorem traceRecord_commandEnd (op : Op) (tr : Bool) (s : State) (r : Nat) : traceRecord (commandEnd op tr s) r =
    if tr = true then (launchDivision op s).2[r]?.getD (traceRecord s r) else traceRecord s r := by
  have hswept := swept_engineSteps op tr s _ (Nat.le_refl _)
  obtain ⟨hsweep, hover, -⟩ := hswept.finish
  rw [commandEnd_eq_engineStep, engineStep_finish _ hsweep hover, traceRecord_engineFinishStep, hswept.trace,
    launchDivision_eq]

/-- Entries the command did not write. -/
theorem traceRecord_commandEnd_kept (op : Op) (tr : Bool) (s : State) (r : Nat)
    (h : tr = false ∨ launchWindows op s ≤ r) : traceRecord (commandEnd op tr s) r = traceRecord s r := by
  rw [traceRecord_commandEnd]
  rcases h with rfl | hr
  · rfl
  · rw [List.getElem?_eq_none (by rwa [launchDivision_records_length])]
    exact ite_self _

theorem map_range_getElem?_getD {α : Type} (as : List α) (old : Nat → α) :
    (List.range as.length).map (fun r => as[r]?.getD (old r)) = as := by
  apply List.ext_getElem (by simp)
  intro r _ hr
  simp [hr]

/-- The trace a host reads at the end of a traced command. -/
theorem shownTrace_commandEnd (op : Op) (s : State) (hfits : launchWindows op s ≤ 32768)
    (h : (commandEnd op true s).regs.tcount = BitVec.ofNat 32 (launchWindows op s)) :
    shownTrace (commandEnd op true s) = (launchDivision op s).2 := by
  rw [shownTrace, h, toNat_ofNat_length _ hfits, ← launchDivision_records_length,
    funext (traceRecord_commandEnd op true s)]
  exact map_range_getElem?_getD _ _

/-- Bits that were written over a buffer from position 0 on read back as the string. -/
theorem map_range_written (bs : Bits) (size : Nat) (bit old : Nat → Bool) (len : Word)
    (hlen : len = BitVec.ofNat 32 bs.length) (hfits : bs.length ≤ size) (hword : bs.length ≤ 32768)
    (h : ∀ j, bit j = if j < bs.length then decide (j < size) && bs.getD j false else old j) :
    (List.range len.toNat).map bit = bs := by
  rw [hlen, toNat_ofNat_length _ hword]
  refine (List.map_congr_left fun j hj => ?_).trans (map_range_getD bs)
  have hj : j < bs.length := List.mem_range.1 hj
  have hsize : j < size := by omega
  rw [h j, if_pos hj, decide_eq_true hsize, Bool.true_and]

/-! ## DIVIDE -/

/-- What DIVIDE leaves in the registers and the result storage (40_divider.md R117). -/
theorem commandEnd_divide (tr : Bool) (s : State) :
    (commandEnd .divide tr s).eng.phase = .idle ∧
    (commandEnd .divide tr s).regs = { s.regs with
      lastCmd := commandLow .divide tr
      status := { busy := false, done := true, err := false, clean := false, errCode := .none, errArg := false,
                  dropped := false, traced := tr }
      rlen := BitVec.ofNat 32 (launchDivision .divide s).1.length, xlen := 0,
      tcount := if tr = true then BitVec.ofNat 32 (launchWindows .divide s) else 0 } ∧
    (∀ j, rbufBit (commandEnd .divide tr s) j = if j < (launchDivision .divide s).1.length then
      decide (j < s.cfg.rmax) && (launchDivision .divide s).1.getD j false else rbufBit s j) ∧
    ∀ j, xbufBit (commandEnd .divide tr s) j = xbufBit s j := by
  have hswept := swept_engineSteps .divide tr s _ (Nat.le_refl _)
  obtain ⟨hsweep, hover, hrem⟩ := hswept.finish
  have hcfg : (engineSteps (launchWindows .divide s) (launched .divide tr s)).cfg = s.cfg :=
    (congrArg State.cfg (withoutResults_engineSteps (launchWindows .divide s) (launched .divide tr s)) :)
  rw [commandEnd_eq_engineStep]
  generalize engineSteps (launchWindows .divide s) (launched .divide tr s) = t at *
  obtain ⟨hdivide, -, -, hidle, -⟩ := engineFinishStepCommitsEveryResult t hsweep hover
  obtain ⟨hregs, hresult, hframe⟩ := hdivide (by rw [hswept.eng]; rfl)
  simp only [hrem, hcfg] at hregs hresult
  refine ⟨hidle, ?_, fun j => ?_, fun j => (hframe j).trans (hswept.bits j).2⟩
  · rw [hregs, hswept.regs, hswept.eng]
    cases tr <;> rfl
  · rw [hresult j, (hswept.bits j).1]

/-- Settles O23: the engine sweeps through its windows (`swept_engineSteps`), and the step after them leaves what
`commandEnd_divide` says. -/
theorem divideRunsToItsRemainder : Obligations.DivideRunsToItsRemainder := by
  intro i tr hform s hlegal hidle hop out nw
  have hcommand : (i, Op.divide, tr) ∈ commands := by
    simp only [List.mem_cons, List.not_mem_nil, or_false, Prod.mk.injEq] at hform
    rcases hform with ⟨rfl, rfl⟩ | ⟨rfl, rfl⟩ <;> decide
  have hnw : launchWindows .divide s = nw := congrArg (windowCount · s.regs.glen.toNat) (dividendBits_length s)
  obtain ⟨-, hlmax, -, hnmax⟩ := (params_legal_iff s.cfg).1 hlegal
  have ⟨_, hdlen, hgpos, hgmax, _⟩ := hop
  have hlen : out.1.length = remainderLength s.regs.glen.toNat := by
    rw [← generatorBits_length s]
    exact mod2Div_remainder_length _ _ (by rwa [generatorBits_length])
  have hfits : out.1.length ≤ s.cfg.rmax ∧ out.1.length ≤ 32768 := by
    unfold remainderLength at hlen; unfold Params.rmax; omega
  refine ⟨launched .divide tr s, exec_accepted i .divide tr hcommand s hidle hop, fun k hk => ?_, ?_⟩
  · rw [(swept_engineSteps .divide tr s k (hnw ▸ hk)).eng]
    rfl
  · rw [← hnw]
    obtain ⟨hphase, hregs, hresult, hframe⟩ := commandEnd_divide tr s
    obtain ⟨hsurroundings, hoperands⟩ := commandEnd_keeps .divide tr s
    refine ⟨hphase, hregs, ?_, fun htr => ?_, hsurroundings, hoperands, fun j hj => ?_, hframe,
      traceRecord_commandEnd_kept .divide tr s⟩
    · exact map_range_written out.1 s.cfg.rmax _ _ _ (congrArg Regs.rlen hregs) hfits.1 hfits.2 hresult
    · subst htr
      exact shownTrace_commandEnd .divide s (by omega) (congrArg Regs.tcount hregs)
    · exact (hresult j).trans (if_neg (Nat.not_lt.2 hj))

end Sys2Proof.Machine
end

section
/-! The encoding of 41_encoder.md as a function of bit strings: the frame and its checksum (R142, R143), and that the
frame is a multiple of the generator and so verifies clean (R145). -/

namespace Sys2Proof.Machine

open Polynomial

/-! ## The frame -/

theorem encodeFrame_frame (d g : Bits) : (encodeFrame d g).2 = d ++ (encodeFrame d g).1 := rfl

theorem encodeFrame_checksum (d g : Bits) :
    (encodeFrame d g).1 = checksum (mod2Div (d ++ zeros (g.length - 1)) g).1 (g.length - 1) := rfl

theorem checksum_of_pos (rem : Bits) (k : Nat) (h : 1 ≤ k) : checksum rem k = rem := if_neg (by omega)

theorem encodeFrame_checksum_length (d g : Bits) (hg : 1 ≤ g.length) : (encodeFrame d g).1.length = g.length - 1 := by
  rw [encodeFrame_checksum]
  exact checksum_length _ _ hg (mod2Div_remainder_length _ g hg)

theorem encodeFrame_frame_length (d g : Bits) (hg : 1 ≤ g.length) :
    (encodeFrame d g).2.length = d.length + (g.length - 1) := by
  rw [encodeFrame_frame, List.length_append, encodeFrame_checksum_length d g hg]

/-- Settles O16, by the two cases of `checksum` and the length of a remainder. -/
theorem frameIsTheDataThenItsChecksum : Obligations.FrameIsTheDataThenItsChecksum := by
  intro d g hg k cs frame
  exact ⟨encodeFrame_frame d g, fun hk => if_pos hk, fun hk => checksum_of_pos _ k hk,
    encodeFrame_checksum_length d g hg, encodeFrame_frame_length d g hg⟩

/-! ## The frame as a polynomial -/

theorem bitsPoly_mod2Div (d g : Bits) (hn : 2 ≤ g.length) (hg : g.head? = some true) :
    bitsPoly (mod2Div d g).1 = bitsPoly d %ₘ bitsPoly g :=
  (remainderIsThePolynomialRemainder d g hn hg).2

/-- Only a string of zeros is the zero polynomial. -/
theorem eq_zeros_of_bitsPoly_eq_zero (s : Bits) (h : bitsPoly s = 0) : s = zeros s.length := by
  induction s with
  | nil => rfl
  | cons b s ih =>
    cases b with
    | false =>
      have htail : bitsPoly s = 0 := by simpa [bitsPoly_cons] using h
      exact congrArg (false :: ·) (ih htail)
    | true =>
      obtain ⟨hmonic, -⟩ := bitsPoly_leading_one (true :: s) rfl
      exact absurd h hmonic.ne_zero

/-- With coefficients in GF(2), adding the remainder to the padded data is subtracting it (41_encoder.md R145). -/
theorem bitsPoly_dvd_frame (d g : Bits) (hn : 2 ≤ g.length) (hg : g.head? = some true) :
    bitsPoly g ∣ bitsPoly (encodeFrame d g).2 := by
  have hchecksum : (encodeFrame d g).1 = (mod2Div (d ++ zeros (g.length - 1)) g).1 := checksum_of_pos _ _ (by omega)
  have hframe : bitsPoly (encodeFrame d g).2 = bitsPoly (d ++ zeros (g.length - 1)) + bitsPoly (encodeFrame d g).1 := by
    rw [encodeFrame_frame, bitsPoly_append, bitsPoly_append, bitsPoly_zeros, zeros_length, add_zero,
      encodeFrame_checksum_length d g (by omega)]
  rw [hframe, hchecksum, bitsPoly_mod2Div _ g hn hg, ← CharTwo.sub_eq_add]
  obtain ⟨hmonic, -⟩ := bitsPoly_leading_one g hg
  rw [modByMonic_eq_sub_mul_div, sub_sub_cancel]
  exact dvd_mul_right _ _

theorem cleanVerdict_zeros (k : Nat) : cleanVerdict (zeros k) = true :=
  (cleanVerdict_iff _).2 fun _ => List.eq_of_mem_replicate

/-- The frame leaves no remainder: with the one-bit generator because no frame does, else because the frame is a multiple of
the generator (41_encoder.md R145). -/
theorem mod2Div_frame (d g : Bits) (hg : g.head? = some true) :
    (mod2Div (encodeFrame d g).2 g).1 = zeros (remainderLength g.length) := by
  have hpos : 1 ≤ g.length := List.length_pos_of_mem (List.mem_of_head? hg)
  rcases Nat.eq_or_lt_of_le hpos with hone | hn
  · rw [mod2Div_remainder, ← hone]
    exact remainder_of_one _ _
  · obtain ⟨hmonic, -⟩ := bitsPoly_leading_one g hg
    have hzero : bitsPoly (mod2Div (encodeFrame d g).2 g).1 = 0 := by
      rw [bitsPoly_mod2Div _ g hn hg]
      exact (modByMonic_eq_zero_iff_dvd hmonic).2 (bitsPoly_dvd_frame d g hn hg)
    rw [← mod2Div_remainder_length (encodeFrame d g).2 g hpos]
    exact eq_zeros_of_bitsPoly_eq_zero _ hzero

/-- Settles O18: the frame's remainder is all zeros, and zeros are clean. -/
theorem encodedFrameVerifiesClean : Obligations.EncodedFrameVerifiesClean := by
  intro d g _ hg
  have hverify : verifyFrame (encodeFrame d g).2 g =
      (cleanVerdict (mod2Div (encodeFrame d g).2 g).1, (mod2Div (encodeFrame d g).2 g).1) := rfl
  rw [hverify, mod2Div_frame d g hg, cleanVerdict_zeros]
  rfl

end Sys2Proof.Machine
end

section
/-! What any command leaves at its end, in terms of its division (40_divider.md R114), and ENCODE and the round trip from
the launch to the end (41_encoder.md R140, R145). -/

namespace Sys2Proof.Machine

/-! ## The results of a command -/

/-- What a command launched in `s` leaves in RBUF. -/
def commandResult (op : Op) (s : State) : Bits :=
  match op with
  | .encode => checksum (launchDivision .encode s).1 (s.regs.glen.toNat - 1)
  | .divide | .verify => (launchDivision op s).1

/-- What a command launched in `s` leaves in XBUF. -/
def commandFrame (op : Op) (s : State) : Bits :=
  match op with
  | .encode => dividendBits s ++ commandResult .encode s
  | .divide | .verify => []

/-- The CLEAN bit a command launched in `s` leaves. -/
def commandClean (op : Op) (s : State) : Bool :=
  match op with
  | .verify => cleanVerdict (launchDivision .verify s).1
  | .divide | .encode => false

/-- The registers after a command launched in `s`. -/
def commandRegs (op : Op) (tr : Bool) (s : State) : Regs :=
  { s.regs with
    lastCmd := commandLow op tr
    status := { busy := false, done := true, err := false, clean := commandClean op s, errCode := .none, errArg := false,
                dropped := false, traced := tr }
    rlen := BitVec.ofNat 32 (commandResult op s).length
    xlen := BitVec.ofNat 32 (commandFrame op s).length
    tcount := if tr = true then BitVec.ofNat 32 (launchWindows op s) else 0 }

/-- The finish step leaves these results, whichever the command (40_divider.md R114). -/
theorem Swept.engineStep_results {op : Op} {tr : Bool} {s t : State} (h : Swept op tr s (launchWindows op s) t)
    (hcfg : t.cfg = s.cfg) :
    (engineStep t).eng.phase = .idle ∧ (engineStep t).regs = commandRegs op tr s ∧
    (∀ j, rbufBit (engineStep t) j = if j < (commandResult op s).length then
      decide (j < s.cfg.rmax) && (commandResult op s).getD j false else rbufBit s j) ∧
    ∀ j, xbufBit (engineStep t) j = if j < (commandFrame op s).length then
      decide (j < s.cfg.wmax) && (commandFrame op s).getD j false else xbufBit s j := by
  obtain ⟨hsweep, hover, hrem⟩ := h.finish
  obtain ⟨hdivide, hencode, hverify, hidle, -⟩ := engineFinishStepCommitsEveryResult t hsweep hover
  have hlatches : t.eng.opL = op ∧ t.eng.nL = s.regs.glen.toNat ∧ t.eng.dL = dividendBits s ∧ t.eng.trL = tr ∧
      t.eng.tc = if tr = true then launchWindows op s else 0 := by
    rw [h.eng]; exact ⟨rfl, rfl, rfl, rfl, rfl⟩
  obtain ⟨hop, hn, hd, htr, htc⟩ := hlatches
  rw [hn] at hrem
  simp only [hrem, hcfg, hop, hn, hd, htr, htc, h.regs, h.bits] at hdivide hencode hverify
  refine ⟨hidle, ?_⟩
  cases op with
  | divide => cases tr <;> exact hdivide rfl
  | encode => cases tr <;> exact hencode rfl
  | verify => cases tr <;> exact hverify rfl

theorem commandEnd_results (op : Op) (tr : Bool) (s : State) :
    (commandEnd op tr s).eng.phase = .idle ∧ (commandEnd op tr s).regs = commandRegs op tr s ∧
    (∀ j, rbufBit (commandEnd op tr s) j = if j < (commandResult op s).length then
      decide (j < s.cfg.rmax) && (commandResult op s).getD j false else rbufBit s j) ∧
    ∀ j, xbufBit (commandEnd op tr s) j = if j < (commandFrame op s).length then
      decide (j < s.cfg.wmax) && (commandFrame op s).getD j false else xbufBit s j := by
  rw [commandEnd_eq_engineStep]
  refine (swept_engineSteps op tr s _ (Nat.le_refl _)).engineStep_results ?_
  exact (congrArg State.cfg (withoutResults_engineSteps (launchWindows op s) (launched op tr s)) :)

/-- The engine sweeps while windows are left. -/
theorem engineSteps_launched_sweep (op : Op) (tr : Bool) (s : State) (k : Nat) (hk : k ≤ launchWindows op s) :
    (engineSteps k (launched op tr s)).eng.phase = .sweep := by
  rw [(swept_engineSteps op tr s k hk).eng]
  rfl

/-! ## The results fit their storage -/

theorem launchBuffer_length (op : Op) (s : State) : (launchBuffer op s).length =
    s.regs.dlen.toNat + if op = .encode then s.regs.glen.toNat - 1 else 0 := by
  rw [launchBuffer, workingBuffer_length, dividendBits_length]

theorem launchDivision_remainder_length (op : Op) (s : State) (hg : 1 ≤ s.regs.glen.toNat) :
    (launchDivision op s).1.length = remainderLength s.regs.glen.toNat := by
  rw [← generatorBits_length s]
  exact mod2Div_remainder_length _ _ (by rwa [generatorBits_length])

theorem commandResult_encode (s : State) : commandResult .encode s = (encodeFrame (dividendBits s) (generatorBits s)).1 := by
  rw [encodeFrame_checksum, generatorBits_length]
  rfl

theorem commandFrame_encode (s : State) : commandFrame .encode s = (encodeFrame (dividendBits s) (generatorBits s)).2 := by
  rw [encodeFrame_frame, ← commandResult_encode]
  rfl

/-- A result has RL(n) bits, but a checksum n - 1. -/
theorem commandResult_length (op : Op) (s : State) (hg : 1 ≤ s.regs.glen.toNat) : (commandResult op s).length =
    if op = .encode then s.regs.glen.toNat - 1 else remainderLength s.regs.glen.toNat := by
  cases op with
  | divide => exact launchDivision_remainder_length .divide s hg
  | encode => exact checksum_length _ _ hg (launchDivision_remainder_length .encode s hg)
  | verify => exact launchDivision_remainder_length .verify s hg

/-- Only ENCODE leaves a frame. -/
theorem commandFrame_length (op : Op) (s : State) (hg : 1 ≤ s.regs.glen.toNat) : (commandFrame op s).length =
    if op = .encode then s.regs.dlen.toNat + (s.regs.glen.toNat - 1) else 0 := by
  cases op with
  | divide => rfl
  | encode =>
    rw [commandFrame, List.length_append, dividendBits_length, commandResult_length .encode s hg]
    rfl
  | verify => rfl

theorem commandResult_fits (op : Op) (s : State) (hop : LegalOperands op s) :
    (commandResult op s).length ≤ s.cfg.rmax := by
  have ⟨_, _, hgpos, hgmax, _⟩ := hop
  rw [commandResult_length op s hgpos]
  unfold remainderLength Params.rmax
  split <;> omega

theorem commandFrame_fits (op : Op) (s : State) (hop : LegalOperands op s) :
    (commandFrame op s).length ≤ s.cfg.wmax := by
  have ⟨_, _, hgpos, _, hroom, _⟩ := hop
  rw [commandFrame_length op s hgpos]
  unfold Params.wmax
  split
  · next hencode => have := hroom hencode; omega
  · exact Nat.zero_le _

/-- Each window starts at a position of the buffer, which the storage holds. -/
theorem launchWindows_fits (op : Op) (s : State) (hop : LegalOperands op s) : launchWindows op s ≤ s.cfg.lmax := by
  have ⟨_, hdmax, hgpos, _, hroom, _⟩ := hop
  rw [launchWindows, launchBuffer_length]
  unfold windowCount
  split <;> omega

theorem params_sizes_le_of_legal (p : Params) (h : p.legal = true) : p.rmax ≤ 32768 ∧ p.wmax ≤ 32768 ∧ p.lmax ≤ 32768 := by
  obtain ⟨_, hlmax, _, hnmax⟩ := (params_legal_iff p).1 h
  unfold Params.rmax Params.wmax
  omega

/-! ## What a host reads at the end -/

theorem resultBits_commandEnd (op : Op) (tr : Bool) (s : State) (hlegal : s.cfg.legal = true)
    (hop : LegalOperands op s) : resultBits (commandEnd op tr s) = commandResult op s := by
  obtain ⟨-, hregs, hresult, -⟩ := commandEnd_results op tr s
  obtain ⟨hword, -, -⟩ := params_sizes_le_of_legal s.cfg hlegal
  have hfits := commandResult_fits op s hop
  exact map_range_written _ s.cfg.rmax _ _ _ (congrArg Regs.rlen hregs) hfits (hfits.trans hword) hresult

theorem frameBits_commandEnd (op : Op) (tr : Bool) (s : State) (hlegal : s.cfg.legal = true)
    (hop : LegalOperands op s) : frameBits (commandEnd op tr s) = commandFrame op s := by
  obtain ⟨-, hregs, -, hframe⟩ := commandEnd_results op tr s
  obtain ⟨-, hword, -⟩ := params_sizes_le_of_legal s.cfg hlegal
  have hfits := commandFrame_fits op s hop
  exact map_range_written _ s.cfg.wmax _ _ _ (congrArg Regs.xlen hregs) hfits (hfits.trans hword) hframe

/-! ## ENCODE -/

/-- The padded data has one window per data bit. -/
theorem launchWindows_encode (s : State) (hg : 1 ≤ s.regs.glen.toNat) : launchWindows .encode s = s.regs.dlen.toNat := by
  rw [launchWindows, launchBuffer_length, if_pos rfl]
  unfold windowCount
  omega

/-- Settles O24: the engine sweeps through the L windows of the padded data, and the step after them leaves the results
`commandEnd_results` says. -/
theorem encodeRunsToItsFrame : Obligations.EncodeRunsToItsFrame := by
  intro i tr hform s hlegal hidle hop d g k l
  have hcommand : (i, Op.encode, tr) ∈ commands := by
    simp only [List.mem_cons, List.not_mem_nil, or_false, Prod.mk.injEq] at hform
    rcases hform with ⟨rfl, rfl⟩ | ⟨rfl, rfl⟩ <;> decide
  have ⟨_, _, hgpos, _⟩ := hop
  have hl : launchWindows .encode s = l := launchWindows_encode s hgpos
  have hk : (commandResult .encode s).length = k := commandResult_length .encode s hgpos
  have hlk : (commandFrame .encode s).length = l + k := commandFrame_length .encode s hgpos
  refine ⟨launched .encode tr s, exec_accepted i .encode tr hcommand s hidle hop,
    fun m hm => engineSteps_launched_sweep .encode tr s m (hl ▸ hm), ?_⟩
  have hend : engineSteps (l + 1) (launched .encode tr s) = commandEnd .encode tr s := by rw [← hl]; rfl
  rw [hend]
  obtain ⟨hphase, hregs, hresult, hframe⟩ := commandEnd_results .encode tr s
  obtain ⟨hsurroundings, hoperands⟩ := commandEnd_keeps .encode tr s
  refine ⟨hphase, ?_, (resultBits_commandEnd .encode tr s hlegal hop).trans (commandResult_encode s),
    (frameBits_commandEnd .encode tr s hlegal hop).trans (commandFrame_encode s), fun htr => ?_, hsurroundings, hoperands,
    fun j hj => ?_, fun j hj => ?_, hl ▸ traceRecord_commandEnd_kept .encode tr s⟩
  · rw [hregs, commandRegs, hk, hlk, hl]
    rfl
  · subst htr
    obtain ⟨-, -, hword⟩ := params_sizes_le_of_legal s.cfg hlegal
    exact shownTrace_commandEnd .encode s ((launchWindows_fits .encode s hop).trans hword) (congrArg Regs.tcount hregs)
  · exact (hresult j).trans (if_neg (by omega))
  · exact (hframe j).trans (if_neg (by omega))

/-! ## The round trip -/

theorem generatorBits_head? (s : State) (hg : 1 ≤ s.regs.glen.toNat) : (generatorBits s).head? = some (gbufBit s 0) := by
  rw [List.head?_eq_getElem?, generatorBits, List.getElem?_map, List.getElem?_range hg]
  rfl

/-- The frame of a legal ENCODE is legal data for VERIFY with the same generator. -/
theorem legalOperands_verify_of_frame (s v : State) (hcfg : v.cfg = s.cfg) (hop : LegalOperands .encode s)
    (hdata : dividendBits v = commandFrame .encode s) (hgen : generatorBits v = generatorBits s) :
    LegalOperands .verify v := by
  have ⟨hdpos, _, hgpos, hgmax, hroom, hleading⟩ := hop
  have hglen : v.regs.glen.toNat = s.regs.glen.toNat := by rw [← generatorBits_length, hgen, generatorBits_length]
  have hdlen : v.regs.dlen.toNat = s.regs.dlen.toNat + (s.regs.glen.toNat - 1) := by
    rw [← dividendBits_length, hdata, commandFrame_length .encode s hgpos, if_pos rfl]
  have hhead : some (gbufBit v 0) = some (gbufBit s 0) := by
    rw [← generatorBits_head? v (hglen ▸ hgpos), hgen, generatorBits_head? s hgpos]
  have hfits : v.regs.dlen.toNat ≤ v.cfg.lmax := by
    have := hroom rfl
    rw [hdlen, hcfg]
    omega
  exact ⟨by omega, hfits, hglen ▸ hgpos, by rw [hglen, hcfg]; exact hgmax, nofun, (Option.some.inj hhead).trans hleading⟩

/-- Settles O27: the second state divides the frame of the first, which leaves zeros (`mod2Div_frame`). -/
theorem verifyOfAnEncodedFrameEndsClean : Obligations.VerifyOfAnEncodedFrameEndsClean := by
  intro s v hlegal hcfg hsidle hvidle hop hoperands
  have ⟨_, _, hgpos, _, _, hleading⟩ := hop
  have hsent : engineSteps (s.regs.dlen.toNat + 1) (launched .encode false s) = commandEnd .encode false s := by
    rw [← launchWindows_encode s hgpos]; rfl
  obtain ⟨hdata, hgen⟩ := hoperands _ (exec_accepted .encode .encode false (by decide) s hsidle hop)
  rw [hsent, frameBits_commandEnd .encode false s hlegal hop] at hdata
  have hvop : LegalOperands .verify v := legalOperands_verify_of_frame s v hcfg hop hdata hgen
  have hhead : (generatorBits s).head? = some true := (generatorBits_head? s hgpos).trans (congrArg some hleading)
  have hzeros : (launchDivision .verify v).1 = zeros (remainderLength s.regs.glen.toNat) := by
    rw [← generatorBits_length s, ← mod2Div_frame (dividendBits s) _ hhead, ← commandFrame_encode, ← hdata, ← hgen]
    rfl
  have hwindows : launchWindows .verify v = v.regs.dlen.toNat + 1 - v.regs.glen.toNat := by
    rw [launchWindows, launchBuffer_length]; rfl
  refine ⟨launched .verify false v, exec_accepted .verify .verify false (by decide) v hvidle hvop, ?_⟩
  rw [← hwindows]
  obtain ⟨hphase, hregs, -, -⟩ := commandEnd_results .verify false v
  refine ⟨⟨hphase, congrArg (·.status.done) hregs⟩, congrArg (·.status.err) hregs, ?_, ?_⟩
  · refine (congrArg (·.status.clean) hregs).trans ?_
    show cleanVerdict (launchDivision .verify v).1 = true
    rw [hzeros, cleanVerdict_zeros]
  · exact (resultBits_commandEnd .verify false v (hcfg ▸ hlegal) hvop).trans hzeros

end Sys2Proof.Machine
end

section
/-! The verification of 42_verifier.md: the verdict (R151), the single-bit error it detects (R154), and VERIFY from the
launch to the end (R150, R152, R153, R155). -/

namespace Sys2Proof.Machine

open Polynomial

/-! ## The verdict -/

theorem verifyFrame_verdict (r g : Bits) : (verifyFrame r g).1 = cleanVerdict (mod2Div r g).1 := rfl

/-- The CLEAN bit of the step that ends a VERIFY (40_divider.md R114). -/
theorem engineStep_clean_of_verify (s : State) (hsweep : s.eng.phase = .sweep) (hover : s.eng.lw < s.eng.i + s.eng.nL)
    (hop : s.eng.opL = .verify) :
    (engineStep s).regs.status.clean = cleanVerdict (remainder s.eng.wbuf s.eng.lw s.eng.nL) := by
  obtain ⟨-, -, hverify, -⟩ := engineFinishStepCommitsEveryResult s hsweep hover
  obtain ⟨hregs, -⟩ := hverify hop
  exact congrArg (·.status.clean) hregs

/-- Settles O17: both verdicts are `cleanVerdict` of the remainder. -/
theorem verdictIsAnAllZeroRemainder : Obligations.VerdictIsAnAllZeroRemainder := by
  refine ⟨fun r g => cleanVerdict_iff (mod2Div r g).1, fun s hsweep hover hop => ?_⟩
  rw [engineStep_clean_of_verify s hsweep hover hop]
  exact cleanVerdict_iff _

/-! ## A single-bit error -/

theorem coeff_not (b : Bool) : (if !b then 1 else 0 : ZMod 2) = (if b then 1 else 0) + 1 := by
  revert b; decide

/-- Flipping one bit adds the power of its position. -/
theorem bitsPoly_flip (s : Bits) (p : Nat) (hp : p < s.length) :
    bitsPoly (s.set p (!s.getD p false)) = bitsPoly s + X ^ (s.length - 1 - p) := by
  induction s generalizing p with
  | nil => exact absurd hp (Nat.not_lt_zero p)
  | cons b s ih =>
    cases p with
    | zero =>
      simp only [List.set_cons_zero, List.getD_cons_zero, List.length_cons, bitsPoly_cons, coeff_not, C_add, C_1,
        Nat.add_sub_cancel, Nat.sub_zero]
      ring
    | succ p =>
      have hpower : s.length + 1 - 1 - (p + 1) = s.length - 1 - p := by omega
      simp only [List.set_cons_succ, List.getD_cons_succ, List.length_cons, bitsPoly_cons, List.length_set, hpower,
        ih p (Nat.lt_of_succ_lt_succ hp)]
      ring

/-- A string whose polynomial divides a power of X is a 1 followed by zeros: the divisors of a power of X are the powers
of X. -/
theorem count_true_of_dvd_X_pow (g : Bits) (hg : g.head? = some true) (m : Nat) (h : bitsPoly g ∣ X ^ m) :
    g.count true = 1 := by
  obtain ⟨rest, rfl⟩ : ∃ rest, g = true :: rest := ⟨g.tail, List.eq_cons_of_mem_head? hg⟩
  obtain ⟨hmonic, hdegree⟩ := bitsPoly_leading_one (true :: rest) rfl
  obtain ⟨j, -, hassociated⟩ := (dvd_prime_pow prime_X m).1 h
  have hpower : bitsPoly (true :: rest) = X ^ j := eq_of_monic_of_associated hmonic (monic_X_pow j) hassociated
  have hj : j = rest.length := by
    rw [hpower, degree_X_pow] at hdegree
    exact_mod_cast hdegree
  have hrest : bitsPoly rest = 0 := by simpa [bitsPoly_cons, hj] using hpower
  rw [eq_zeros_of_bitsPoly_eq_zero rest hrest]
  simp [zeros, List.count_replicate]

/-- A frame that verifies clean is a multiple of the generator. -/
theorem bitsPoly_dvd_of_clean (r g : Bits) (hn : 2 ≤ g.length) (hg : g.head? = some true)
    (h : (verifyFrame r g).1 = true) : bitsPoly g ∣ bitsPoly r := by
  have hzeros := (cleanVerdict_iff_zeros _).1 ((verifyFrame_verdict r g).symm.trans h)
  obtain ⟨hmonic, -⟩ := bitsPoly_leading_one g hg
  rw [← modByMonic_eq_zero_iff_dvd hmonic, ← bitsPoly_mod2Div r g hn hg, hzeros]
  exact bitsPoly_zeros _

/-- Settles O19: were the flipped frame clean, the generator would divide both frames and so the power of X between them
(`bitsPoly_flip`), and would have a single 1 bit. -/
theorem singleBitErrorIsDetected : Obligations.SingleBitErrorIsDetected := by
  intro d g p _ hn hg hones hp
  refine Bool.eq_false_iff.2 fun hclean => ?_
  have hflipped := bitsPoly_dvd_of_clean _ g hn hg hclean
  rw [bitsPoly_flip _ p hp, dvd_add_right (bitsPoly_dvd_frame d g hn hg)] at hflipped
  have hone := count_true_of_dvd_X_pow g hg _ hflipped
  omega

/-! ## VERIFY from the launch to the end -/

/-- The received frame is not padded (42_verifier.md R152). -/
theorem commandResult_verify (s : State) :
    commandResult .verify s = (mod2Div (dividendBits s) (generatorBits s)).1 := rfl

/-- One window per position of the received frame at which the generator fits (42_verifier.md R152). -/
theorem launchWindows_verify (s : State) : launchWindows .verify s = s.regs.dlen.toNat + 1 - s.regs.glen.toNat := by
  rw [launchWindows, launchBuffer_length]
  rfl

/-- Settles O25: the engine sweeps through the windows of the unpadded frame, and the step after them leaves the results
`commandEnd_results` says. -/
theorem verifyRunsToItsVerdict : Obligations.VerifyRunsToItsVerdict := by
  intro i tr hform s hlegal hidle hop out nw
  have hcommand : (i, Op.verify, tr) ∈ commands := by
    simp only [List.mem_cons, List.not_mem_nil, or_false, Prod.mk.injEq] at hform
    rcases hform with ⟨rfl, rfl⟩ | ⟨rfl, rfl⟩ <;> decide
  have hnw : launchWindows .verify s = nw := launchWindows_verify s
  refine ⟨launched .verify tr s, exec_accepted i .verify tr hcommand s hidle hop,
    fun k hk => engineSteps_launched_sweep .verify tr s k (hnw ▸ hk), ?_⟩
  have hend : engineSteps (nw + 1) (launched .verify tr s) = commandEnd .verify tr s := by rw [← hnw]; rfl
  rw [hend]
  obtain ⟨hphase, hregs, hresult, hframe⟩ := commandEnd_results .verify tr s
  obtain ⟨hsurroundings, hoperands⟩ := commandEnd_keeps .verify tr s
  refine ⟨hphase, ?_, (resultBits_commandEnd .verify tr s hlegal hop).trans (commandResult_verify s), fun htr => ?_,
    hsurroundings, hoperands,
    fun j hj => (hresult j).trans (if_neg (Nat.not_lt.2 hj)), hframe, hnw ▸ traceRecord_commandEnd_kept .verify tr s⟩
  · rw [hregs, commandRegs, commandResult_verify, hnw]
    rfl
  · subst htr
    obtain ⟨-, -, hword⟩ := params_sizes_le_of_legal s.cfg hlegal
    exact shownTrace_commandEnd .verify s ((launchWindows_fits .verify s hop).trans hword) (congrArg Regs.tcount hregs)

/-! ## VERIFY with the one-bit generator -/

/-- The one-bit generator leaves the remainder "0" of every string (40_divider.md R104). -/
theorem mod2Div_of_one_bit (d g : Bits) (h : g.length = 1) : (mod2Div d g).1 = [false] := by
  rw [mod2Div_remainder, h]
  exact remainder_of_one _ _

/-- Settles O28: one window per position of the frame, and the remainder "0" is clean. -/
theorem oneBitGeneratorAlwaysVerifiesClean : Obligations.OneBitGeneratorAlwaysVerifiesClean := by
  intro i hform s hlegal hidle hop hglen
  obtain ⟨tr, hcommand⟩ : ∃ tr, (i, tr) ∈ [(Instr.verify, false), (Instr.verifyT, true)] := by
    simp only [List.mem_cons, List.not_mem_nil, or_false] at hform
    rcases hform with rfl | rfl
    · exact ⟨false, by decide⟩
    · exact ⟨true, by decide⟩
  have hwindows : s.regs.dlen.toNat + 1 - s.regs.glen.toNat = s.regs.dlen.toNat := by rw [hglen]; rfl
  have hzero : (mod2Div (dividendBits s) (generatorBits s)).1 = [false] :=
    mod2Div_of_one_bit _ _ (by rw [generatorBits_length, hglen]; rfl)
  obtain ⟨t, hexec, -, hphase, hregs, hresult, -⟩ := verifyRunsToItsVerdict i tr hcommand s hlegal hidle hop
  rw [hwindows] at hphase hregs hresult
  rw [hzero] at hregs hresult
  exact ⟨t, hexec, ⟨hphase, congrArg (·.status.done) hregs⟩, congrArg (·.status.clean) hregs, congrArg Regs.rlen hregs,
    hresult⟩

end Sys2Proof.Machine
end

section
/-! Errors, dropped launches and the interrupt line (60_exceptions.md): which launch check fails first (R166), what an error
completion writes (R163), the illegal launch (R164), a launch during a sweep (R168), and when `irq` is 1 (R171). -/

namespace Sys2Proof.Machine

/-! ## The launch checks in their order -/

section
variable (op : Op) (s : State)

theorem operandCheck_of_no_data (hdata : s.regs.dlen.toNat = 0) : operandCheck op s = some (.invalidInput, false) :=
  if_pos hdata

theorem operandCheck_of_too_much_data (hdata : s.cfg.lmax < s.regs.dlen.toNat) :
    operandCheck op s = some (.capacity, false) := by
  rw [operandCheck, if_neg (by omega), if_pos hdata]

theorem operandCheck_of_no_generator (hpos : 1 ≤ s.regs.dlen.toNat) (hfits : s.regs.dlen.toNat ≤ s.cfg.lmax)
    (hgen : s.regs.glen.toNat = 0) : operandCheck op s = some (.invalidInput, true) := by
  rw [operandCheck, if_neg (by omega), if_neg (by omega), if_pos hgen]

theorem operandCheck_of_too_long_generator (hpos : 1 ≤ s.regs.dlen.toNat) (hfits : s.regs.dlen.toNat ≤ s.cfg.lmax)
    (hgen : s.cfg.nmax < s.regs.glen.toNat) : operandCheck op s = some (.capacity, true) := by
  rw [operandCheck, if_neg (by omega), if_neg (by omega), if_neg (by omega), if_pos hgen]

/-- ENCODE's frame is longer than its data (41_encoder.md R143), and must fit as well. -/
theorem operandCheck_of_too_long_frame (hpos : 1 ≤ s.regs.dlen.toNat) (hfits : s.regs.dlen.toNat ≤ s.cfg.lmax)
    (hgpos : 1 ≤ s.regs.glen.toNat) (hgfits : s.regs.glen.toNat ≤ s.cfg.nmax) (hencode : op = .encode)
    (hframe : s.cfg.lmax < s.regs.dlen.toNat + s.regs.glen.toNat - 1) : operandCheck op s = some (.capacity, false) := by
  rw [operandCheck, if_neg (by omega), if_neg (by omega), if_neg (by omega), if_neg (by omega), if_pos ⟨hencode, hframe⟩]

theorem operandCheck_of_leading_zero (hpos : 1 ≤ s.regs.dlen.toNat) (hfits : s.regs.dlen.toNat ≤ s.cfg.lmax)
    (hgpos : 1 ≤ s.regs.glen.toNat) (hgfits : s.regs.glen.toNat ≤ s.cfg.nmax)
    (hframe : op = .encode → s.regs.dlen.toNat + s.regs.glen.toNat - 1 ≤ s.cfg.lmax) (hleading : gbufBit s 0 = false) :
    operandCheck op s = some (.invalidGenerator, true) := by
  have hfits' : ¬ (op = .encode ∧ s.cfg.lmax < s.regs.dlen.toNat + s.regs.glen.toNat - 1) :=
    fun ⟨hencode, hover⟩ => Nat.not_lt.2 (hframe hencode) hover
  rw [operandCheck, if_neg (by omega), if_neg (by omega), if_neg (by omega), if_neg (by omega), if_neg hfits',
    if_pos hleading]

end

/-- A command in IDLE ends in the error its operand check reports. -/
theorem exec_error (i : Instr) (op : Op) (tr : Bool) (h : (i, op, tr) ∈ commands) (s : State) (e : LaunchError)
    (hidle : s.eng.phase = .idle) (he : operandCheck op s = some e) :
    exec i s = .next (errorCompletion e (noteLaunch (commandLow op tr) s)) :=
  (exec_command i op tr h s).trans (launch_error _ op tr s e hidle he)

/-- The error of an illegal word stands before every operand check (60_exceptions.md R164, R166). -/
theorem exec_illegal_idle (rsvd : BitVec 28) (t : BitVec 1) (op : BitVec 2) (s : State) (hidle : s.eng.phase = .idle) :
    exec (.illegal rsvd t op) s = .next (errorCompletion (.illegalCommand, false) (noteLaunch (t ++ op) s)) :=
  launch_illegal (t ++ op) s hidle

/-- Settles O8: each clause names the check that fails first, and operands that pass them all are legal. -/
theorem launchReportsTheFirstFailingCheck : Obligations.LaunchReportsTheFirstFailingCheck := by
  refine ⟨exec_illegal_idle, ?_⟩
  intro i op tr hcommand s hidle l n lmax nmax reports
  have hreports : ∀ e, operandCheck op s = some e → reports e := fun e => exec_error i op tr hcommand s e hidle
  refine ⟨fun hl => hreports _ (operandCheck_of_no_data op s hl),
    fun hl => hreports _ (operandCheck_of_too_much_data op s hl),
    fun hpos hfits hn => hreports _ (operandCheck_of_no_generator op s hpos hfits hn),
    fun hpos hfits hn => hreports _ (operandCheck_of_too_long_generator op s hpos hfits hn),
    fun hpos hfits hgpos hgfits hencode hframe =>
      hreports _ (operandCheck_of_too_long_frame op s hpos hfits hgpos hgfits hencode hframe),
    fun hpos hfits hgpos hgfits hframe hleading =>
      hreports _ (operandCheck_of_leading_zero op s hpos hfits hgpos hgfits hframe hleading),
    fun hpos hfits hgpos hgfits hframe hleading => ?_⟩
  have hlegal : LegalOperands op s := ⟨hpos, hfits, hgpos, hgfits, hframe, hleading⟩
  exact ⟨launched op tr s, exec_accepted i op tr hcommand s hidle hlegal, rfl, rfl⟩

/-! ## The illegal launch -/

theorem decodeWord_illegal (v : Word) (hstart : v.getLsbD 31 = true) (h : fieldRsvd v ≠ 0 ∨ fieldOp v = 3) :
    decodeWord v = .illegal (fieldRsvd v) (fieldT v) (fieldOp v) := by
  have hlaunch : ¬ fieldStart v = false := by simp [fieldStart, hstart]
  rw [decodeWord, if_neg hlaunch]
  by_cases hrsvd : fieldRsvd v ≠ 0
  · exact if_pos hrsvd
  · rw [if_neg hrsvd, if_pos (h.resolve_left hrsvd)]

/-- Settles O10: the write decodes to the illegal launch of the word's own fields, whose T and OP are `v[2:0]`. -/
theorem illegalLaunchEndsInIllegalCommand : Obligations.IllegalLaunchEndsInIllegalCommand := by
  intro v s hidle hstart hillegal t
  have hexec : exec (.illegal (fieldRsvd v) (fieldT v) (fieldOp v)) s = .next t := by
    rw [exec_illegal_idle _ _ _ s hidle, fieldT_append_fieldOp]
    rfl
  have hwrite : memWrite 4 0x0000 v s = exec (decodeWord v) s := memWrite_regOffset .ctrl v s rfl
  exact ⟨rfl, by rw [hwrite, decodeWord_illegal v hstart hillegal, hexec], hexec⟩

/-! ## The error completion, and the dropped launch -/

/-- Settles O9: BUSY is 0 already, and results of length 0 leave every view 0. -/
theorem errorCompletionWritesOnlyItsFields : Obligations.ErrorCompletionWritesOnlyItsFields := by
  intro e s _ hbusy t
  refine ⟨?_, fun w => ?_, rfl, rfl, rfl, rfl⟩
  · simp only [t, errorCompletion, errorFlags, hbusy]
  · exact ⟨regValue_rbuf_of_rlen_zero t w rfl, regValue_xbuf_of_xlen_zero t w rfl,
      windowView_of_tcount_zero t TraceRec.before w rfl, windowView_of_tcount_zero t TraceRec.after w rfl⟩

/-- Settles O11: every word with START = 1 launches, and a launch in SWEEP is dropped before any check. -/
theorem launchDuringSweepIsDropped : Obligations.LaunchDuringSweepIsDropped := by
  intro v s hsweep hstart
  rw [exec_decodeWord_eq_launch v s hstart, launch_sweep _ _ s hsweep]
  rfl

/-! ## The interrupt line -/

theorem irq_of_done (s : State) (h : s.regs.status.done = true) : irq s = s.regs.irqEn := by
  rw [irq, h, Bool.true_and]

theorem irq_of_not_done (s : State) (h : s.regs.status.done = false) : irq s = false := by
  rw [irq, h, Bool.false_and]

/-- Settles O51: a finish step and an error completion set DONE and leave EN, and an accepted launch clears DONE. -/
theorem interruptFollowsCompletion : Obligations.InterruptFollowsCompletion := by
  refine ⟨fun s => Bool.and_eq_true_iff, fun s hsweep hover => ?_, fun e s => irq_of_done (errorCompletion e s) rfl,
    fun i op tr hcommand s hidle hlegal => ⟨launched op tr s, exec_accepted i op tr hcommand s hidle hlegal,
      irq_of_not_done (launched op tr s) rfl⟩⟩
  have hen : (engineStep s).regs.irqEn = s.regs.irqEn := (congrArg (·.regs.irqEn) (withoutResults_engineStep s) :)
  rw [engineStep_finish s hsweep hover] at hen ⊢
  obtain ⟨-, hdone⟩ := commandEnded_engineFinishStep s
  exact (irq_of_done _ hdone).trans hen

end Sys2Proof.Machine
end

section
/-! Reset (70_reset_and_hazards.md): what a reset turn leaves (R190, R192), and a launch right after reset (R193). -/

namespace Sys2Proof.Machine

/-! ## A reset turn -/

/-- A scheduled reset leaves the reset block, whatever the engine is doing (70_reset_and_hazards.md R190). -/
theorem step_reset (s : State) (rest : List Turn) (h : s.turns = .reset :: rest) :
    step s = .next (resetBlock { s with turns := rest }) :=
  step_turn s .reset rest h

theorem statusWord_reset : statusWord Status.reset = 0 := by decide

/-! ## Storage nothing was written to -/

theorem storedBit_nil (size : Nat) (draw : Nat → Bool) (j : Nat) :
    storedBit size draw [] j = (decide (j < size) && draw j) := rfl

theorem dbufBit_resetBlock (s : State) (j : Nat) :
    dbufBit (resetBlock s) j = (decide (j < s.cfg.lmax) && Config.dbufDraw (s.epoch + 1) j) :=
  storedBit_nil s.cfg.lmax (Config.dbufDraw (s.epoch + 1)) j

theorem gbufBit_resetBlock (s : State) (j : Nat) :
    gbufBit (resetBlock s) j = (decide (j < s.cfg.nmax) && Config.gbufDraw (s.epoch + 1) j) :=
  storedBit_nil s.cfg.nmax (Config.gbufDraw (s.epoch + 1)) j

/-- Settles O33: the reset turn leaves `resetBlock`; results of length 0 leave every view 0, and the operand buffers, with
nothing written, hold the draws of the new reset. -/
theorem resetSetsEveryRegister : Obligations.ResetSetsEveryRegister := by
  intro s rest hturns
  let t := resetBlock { s with turns := rest }
  refine ⟨t, step_reset s rest hturns, rfl, statusWord_reset, rfl, rfl, rfl, rfl, rfl, rfl, rfl, rfl,
    irq_of_not_done t rfl, rfl, rfl, rfl, fun w => ?_,
    fun j => ⟨dbufBit_resetBlock { s with turns := rest } j, gbufBit_resetBlock { s with turns := rest } j⟩⟩
  exact ⟨regValue_rbuf_of_rlen_zero t w rfl, regValue_xbuf_of_xlen_zero t w rfl,
    windowView_of_tcount_zero t TraceRec.before w rfl, windowView_of_tcount_zero t TraceRec.after w rfl⟩

/-! ## A launch right after reset -/

/-- The STATUS word of a first error completion, INVALID_INPUT with ERRARG 0 (10_state.md R26; 30_encoding.md R88). -/
theorem statusWord_invalidInput_of_reset : statusWord (errorFlags .invalidInput false Status.reset) = 0x00000016#32 := by
  decide

/-- Settles O35: DLEN is still 0, which the first operand check reports. -/
theorem launchRightAfterResetIsInvalidInput : Obligations.LaunchRightAfterResetIsInvalidInput := by
  intro i op tr hcommand p
  have hcheck : operandCheck op (State.resetWith p) = some (.invalidInput, false) :=
    operandCheck_of_no_data op (State.resetWith p) rfl
  exact ⟨errorCompletion (.invalidInput, false) (noteLaunch (commandLow op tr) (State.resetWith p)),
    exec_error i op tr hcommand (State.resetWith p) _ rfl hcheck, statusWord_invalidInput_of_reset, rfl⟩

end Sys2Proof.Machine
end
